-- ==== Sys2Proof/Word.lean ====
section
/-! DEFINITION. The words of the block: bytes, and the 72-bit command word with its two parts (spec/30_encoding.md R80). -/

namespace Sys2Proof

/-- A byte: "an 8-bit unsigned value" (R10). -/
abbrev Byte := BitVec 8

/-- A command word: "A command is a 72-bit word" (R80). -/
abbrev CmdWord := BitVec 72

/-- The payload of a command, bits [63:0] of its word (R80); a packed record has this width too (R88). -/
abbrev Payload := BitVec 64

end Sys2Proof
end

