-- ==== Sys2Proof/Config.lean ====
section
/-! DEFINITION. The build-time constants of one block (R25) and the draws that power-on reset takes (R8, R32).

The source fixes none of the values, so none is fixed here: every meaning reads the constants of the block it runs in, and
a claim quantifies over them. `Config.illustration` and `Draws.zero` are only what the one constant `State.reset` is built
from (notes/assumptions/1.md, 2.md). -/

namespace Sys2Proof

/-- The build-time constants of R25. "Both units of one block instance use the same value" (R3, R7, R128), so a block
holds one of these. Nothing writes them (R26). -/
structure Config where
  /-- `WIDE`: false is the narrow variant (16-bit tick, 6-byte frame), true the wide one (32-bit tick, 8-byte frame) (R3). -/
  wide : Bool
  /-- `START_MARKER`, the byte at frame offset 0 (R7, R25). -/
  startMarker : Byte
  /-- `END_MARKER`, the byte at frame offset `RS - 1` (R7, R25). -/
  endMarker : Byte
  /-- `PIN_DECODE_MASK`: whether the host reports the pin byte masked to bits [3:0] (R8, R126). -/
  pinDecodeMask : Bool
  deriving DecidableEq, Repr

/-- The power-on draws of R8: "the power-on values of `LO`, `OVF`, `SEQ`, `LAST`". -/
structure Draws where
  /-- `LO_INIT`. -/
  loInit : BitVec 16
  /-- `OVF_INIT`; a narrow block has no `OVF` and does not use it (R22). -/
  ovfInit : BitVec 16
  /-- `SEQ_INIT`. -/
  seqInit : Byte
  /-- `LAST_INIT`. -/
  lastInit : Byte
  deriving DecidableEq, Repr

/-- The wide build with the illustration markers of spec/95_test_vectors.md section 0 ("these are this spec's illustration
values, not the device's"). DESIGN CHOICE, unsafe (notes/assumptions/1.md): only `State.reset` and `decodeTableWord` use it. -/
def Config.illustration : Config :=
  { wide := true, startMarker := 0xA5#8, endMarker := 0x5A#8, pinDecodeMask := true }

/-- Draws that are all zero. DESIGN CHOICE, unsafe (notes/assumptions/2.md): only `State.reset` uses it. -/
def Draws.zero : Draws := { loInit := 0#16, ovfInit := 0#16, seqInit := 0#8, lastInit := 0#8 }

end Sys2Proof
end

