-- ==== Sys2Proof/Syntax.lean ====
section
/-! DEFINITION. The syntax: ports, agents, opcodes and the instructions, one constructor for each row of
spec/opcode_table.json. -/

namespace Sys2Proof

/-- The two units, each with one command port (R80, R203). -/
inductive Port where
  /-- `DEV`: the Clock, the encoder and `SEQ`. -/
  | dev
  /-- `HOST`: the synchronizer, the decoder and the continuity tracker. -/
  | host
  deriving DecidableEq, Repr

/-- The agents that issue commands, and the consumer that takes records (R55). -/
inductive Agent where
  | tickSource
  | deviceClient
  | byteSource
  | hostClient
  | consumer
  deriving DecidableEq, Repr

/-- The seven commands of R80, before their operands. -/
inductive Opcode where
  | tick
  | now
  | encode
  | emit
  | decode
  | syncIn
  | syncClear
  deriving DecidableEq, Repr

/-- The instructions: one constructor for each row of spec/opcode_table.json. ENCODE, EMIT and DECODE have a row for each
width variant. A record operand is a byte sequence, first byte first (R11, R12). -/
inductive Instr where
  /-- TICK (R100). -/
  | tick
  /-- NOW (R101). -/
  | now
  /-- ENCODE, the wide row: counter, 32-bit timestamp, pins (R120). -/
  | encodeWide (c : Byte) (t : BitVec 32) (p : BitVec 4)
  /-- ENCODE, the narrow row: counter, 16-bit timestamp, pins (R120). -/
  | encodeNarrow (c : Byte) (t : BitVec 16) (p : BitVec 4)
  /-- EMIT, the wide row: 32-bit timestamp, pins (R121). -/
  | emitWide (t : BitVec 32) (p : BitVec 4)
  /-- EMIT, the narrow row: 16-bit timestamp, pins (R121). -/
  | emitNarrow (t : BitVec 16) (p : BitVec 4)
  /-- DECODE, the wide row: a record of 8 bytes (R122). -/
  | decodeWide (r : List Byte)
  /-- DECODE, the narrow row: a record of 6 bytes (R122). -/
  | decodeNarrow (r : List Byte)
  /-- SYNC_IN: one byte from the transport (R158). -/
  | syncIn (b : Byte)
  /-- SYNC_CLEAR (R160). -/
  | syncClear
  deriving DecidableEq, Repr

end Sys2Proof
end

