-- ==== Sys2Proof/WellFormed.lean ====
section
/-! DEFINITION. What is admitted: build configurations (R7) and the instructions a block of a given width spells. -/

namespace Sys2Proof

/-- "a model must refuse a configuration with `START_MARKER = END_MARKER`" (R7). -/
def Config.wf (cfg : Config) : Bool := cfg.startMarker != cfg.endMarker

/-- The instructions that command words spell in a block with these constants: the rows of the block's own width
variant, a record being exactly 8 (wide) or 6 (narrow) bytes long (R82, R85, R86). -/
def Instr.wf (cfg : Config) : Instr → Bool
  | .tick => true
  | .now => true
  | .encodeWide _ _ _ => cfg.wide
  | .encodeNarrow _ _ _ => !cfg.wide
  | .emitWide _ _ => cfg.wide
  | .emitNarrow _ _ => !cfg.wide
  | .decodeWide r => cfg.wide && r.length == 8
  | .decodeNarrow r => !cfg.wide && r.length == 6
  | .syncIn _ => true
  | .syncClear => true

end Sys2Proof
end

