-- ==== Sys2Proof/Decode.lean ====
section
/-! DEFINITION. The command word (spec/30_encoding.md, R80 to R88): its fields, the decoder of each port, the encoder. -/

namespace Sys2Proof

/-! ## The opcode map (R80) -/

/-- The `op` column of R80's table. -/
def Opcode.toByte : Opcode → Byte
  | .tick => 0x01#8
  | .now => 0x02#8
  | .encode => 0x10#8
  | .emit => 0x11#8
  | .decode => 0x20#8
  | .syncIn => 0x21#8
  | .syncClear => 0x22#8

/-- The `unit` column of R80's table: the port that the command belongs to. -/
def Opcode.unit : Opcode → Port
  | .tick => .dev
  | .now => .dev
  | .encode => .dev
  | .emit => .dev
  | .decode => .host
  | .syncIn => .host
  | .syncClear => .host

/-- The `issued by` column of R80's table. It says who issues a command; a port does not see the agent, so no step
depends on it (R55, R106). -/
def Opcode.issuer : Opcode → Agent
  | .tick => .tickSource
  | .now => .deviceClient
  | .encode => .deviceClient
  | .emit => .deviceClient
  | .decode => .hostClient
  | .syncIn => .byteSource
  | .syncClear => .byteSource

/-- Every assigned opcode. -/
def Opcode.all : List Opcode := [.tick, .now, .encode, .emit, .decode, .syncIn, .syncClear]

/-- The opcode a byte spells: "Every opcode value not in the table of rule R80 is unassigned" (R81). -/
def Opcode.ofByte (b : Byte) : Option Opcode := Opcode.all.find? fun o => o.toByte == b

/-- The opcode of an instruction. -/
def Instr.opcode : Instr → Opcode
  | .tick => .tick
  | .now => .now
  | .encodeWide _ _ _ => .encode
  | .encodeNarrow _ _ _ => .encode
  | .emitWide _ _ => .emit
  | .emitNarrow _ _ => .emit
  | .decodeWide _ => .decode
  | .decodeNarrow _ => .decode
  | .syncIn _ => .syncIn
  | .syncClear => .syncClear

/-- The unit that an instruction runs on. -/
def Instr.unit (i : Instr) : Port := i.opcode.unit

/-- The agent that issues an instruction. -/
def Instr.issuer (i : Instr) : Agent := i.opcode.issuer

/-! ## The fields of a command word -/

/-- Bits [71:64], the opcode (R80). -/
def opcodeField (w : CmdWord) : Byte := w.extractLsb' 64 8

/-- Bits [63:0], the payload (R80). -/
def payloadField (w : CmdWord) : Payload := w.extractLsb' 0 64

/-- `c`, payload bits [47:40] (R82). -/
def counterField (pl : Payload) : Byte := pl.extractLsb' 40 8

/-- `t` of the wide rows, payload bits [39:8] (R82). -/
def timestampField (pl : Payload) : BitVec 32 := pl.extractLsb' 8 32

/-- `t` of the narrow rows, payload bits [23:8]: `t[31:16]` must be zero there (R82). -/
def timestampFieldNarrow (pl : Payload) : BitVec 16 := pl.extractLsb' 8 16

/-- `p`, payload bits [3:0] (R82). -/
def pinsField (pl : Payload) : BitVec 4 := pl.extractLsb' 0 4

/-- `b`, payload bits [7:0] (R82). -/
def byteField (pl : Payload) : Byte := pl.extractLsb' 0 8

/-- Byte `i` of a record; past its end 0, which is how a short record is padded (R88). -/
def recordByte (r : List Byte) (i : Nat) : Byte := (r[i]?).getD 0#8

/-- Record packing: `r[i]` at bits `[63 - 8i : 56 - 8i]`, first byte most significant; a narrow record leaves bits [15:0]
zero (R88). -/
def pack (r : List Byte) : Payload :=
  recordByte r 0 ++ recordByte r 1 ++ recordByte r 2 ++ recordByte r 3 ++
  recordByte r 4 ++ recordByte r 5 ++ recordByte r 6 ++ recordByte r 7

/-- The first `n` bytes of a packed record (R88). -/
def unpack (n : Nat) (pl : Payload) : List Byte := (List.range n).map fun i => pl.extractLsb' (56 - 8 * i) 8

/-- The payload bits that must be 0: the "zero" cells of R82, `t[31:16]` of a narrow ENCODE or EMIT, and DECODE's bits
[15:0] in the narrow variant (R84). -/
def reservedBits (cfg : Config) : Opcode → Payload
  | .tick => 0xFFFFFFFFFFFFFFFF#64
  | .now => 0xFFFFFFFFFFFFFFFF#64
  | .encode => if cfg.wide then 0xFFFF0000000000F0#64 else 0xFFFF00FFFF0000F0#64
  | .emit => if cfg.wide then 0xFFFFFF00000000F0#64 else 0xFFFFFFFFFF0000F0#64
  | .decode => if cfg.wide then 0#64 else 0x000000000000FFFF#64
  | .syncIn => 0xFFFFFFFFFFFFFF00#64
  | .syncClear => 0xFFFFFFFFFFFFFFFF#64

/-! ## The decoder -/

/-- Why a port answers ILLEGAL (R193). -/
inductive IllegalCause where
  /-- The opcode is unassigned, or assigned to the other unit (R81). -/
  | notAssigned
  /-- A reserved payload bit is set, or a narrow operand is out of range (R84). -/
  | reservedBitSet
  deriving DecidableEq, Repr

/-- The `info` byte of an ILLEGAL response (R190, R193). -/
def IllegalCause.info : IllegalCause → Byte
  | .notAssigned => 1#8
  | .reservedBitSet => 2#8

/-- What a port reads from a command word: an instruction, or the cause for which it shuts the word out. -/
inductive Decoded where
  | instr (i : Instr)
  | illegal (why : IllegalCause)
  deriving DecidableEq, Repr

/-- The instruction with this opcode whose operands stand in the payload (R82, R86). -/
def operands (cfg : Config) (pl : Payload) : Opcode → Instr
  | .tick => .tick
  | .now => .now
  | .encode =>
    if cfg.wide then .encodeWide (counterField pl) (timestampField pl) (pinsField pl)
    else .encodeNarrow (counterField pl) (timestampFieldNarrow pl) (pinsField pl)
  | .emit =>
    if cfg.wide then .emitWide (timestampField pl) (pinsField pl)
    else .emitNarrow (timestampFieldNarrow pl) (pinsField pl)
  | .decode => if cfg.wide then .decodeWide (unpack 8 pl) else .decodeNarrow (unpack 6 pl)
  | .syncIn => .syncIn (byteField pl)
  | .syncClear => .syncClear

/-- The decoder of a port, total on every word. The tests come in R196's order: the opcode against the port, then the
reserved bits. -/
def decode (cfg : Config) (port : Port) (w : CmdWord) : Decoded :=
  match Opcode.ofByte (opcodeField w) with
  | none => .illegal .notAssigned
  | some o =>
    if o.unit = port then
      if payloadField w &&& reservedBits cfg o = 0#64 then .instr (operands cfg (payloadField w) o)
      else .illegal .reservedBitSet
    else .illegal .notAssigned

/-! ## The encoder -/

/-- The payload of an instruction, its fields from the most significant bit down (R82, R86, R88). -/
def Instr.payload : Instr → Payload
  | .tick => 0#64
  | .now => 0#64
  | .encodeWide c t p => 0#16 ++ c ++ t ++ 0#4 ++ p
  | .encodeNarrow c t p => 0#16 ++ c ++ 0#16 ++ t ++ 0#4 ++ p
  | .emitWide t p => 0#24 ++ t ++ 0#4 ++ p
  | .emitNarrow t p => 0#40 ++ t ++ 0#4 ++ p
  | .decodeWide r => pack r
  | .decodeNarrow r => pack r
  | .syncIn b => 0#56 ++ b
  | .syncClear => 0#64

/-- The command word of an instruction (R80, R86). -/
def encode (i : Instr) : CmdWord := i.opcode.toByte ++ i.payload

/-! ## The host's view of the opcode table -/

/-- The port that a word's opcode belongs to; an unassigned opcode belongs to neither, and DEV is as good as HOST. -/
def portOfWord (w : CmdWord) : Port :=
  match Opcode.ofByte (opcodeField w) with
  | some o => o.unit
  | none => .dev

/-- The command word that a table row's bits spell: a command is ONE 72-bit word, so its bits are numbered as R80
numbers them, and bits that the row does not give are 0. -/
def tableWord (nbits w : Nat) : CmdWord := BitVec.ofNat 72 (w % 2 ^ nbits)

/-- What the decoder reads from a table row's bits, at the port its opcode belongs to, in a block built as
`Config.illustration` (notes/assumptions/1.md). -/
def decodeTableWord (nbits w : Nat) : Option Instr :=
  match decode .illustration (portOfWord (tableWord nbits w)) (tableWord nbits w) with
  | .instr i => some i
  | .illegal _ => none

end Sys2Proof
end

