-- ==== Sys2Proof/Machine/Operands.lean ====
section
/-! DEFINITION. Sizes that follow from the build constants (R6), byte sequences and byte order (R11, R51), and the
computation of operand and result values (R72, R73, R84, R126). -/

namespace Sys2Proof

/-! ## Sizes (R6) -/

/-- `TW`, the width of a Tick. -/
def Config.tw (cfg : Config) : Nat := if cfg.wide then 32 else 16

/-- `TSB`, the number of timestamp bytes in a frame. -/
def Config.tsb (cfg : Config) : Nat := cfg.tw / 8

/-- `RS`, the frame length in bytes. -/
def Config.rs (cfg : Config) : Nat := cfg.tsb + 4

/-- `OFF_SEQ`, the offset of the sequence counter. -/
def offSeq : Nat := 1

/-- `OFF_TS`, the offset of the first timestamp byte. -/
def offTs : Nat := 2

/-- `OFF_PIN`, the offset of the pin-state byte. -/
def Config.offPin (cfg : Config) : Nat := 2 + cfg.tsb

/-- `OFF_END`, the offset of the end marker. -/
def Config.offEnd (cfg : Config) : Nat := cfg.rs - 1

namespace Machine

/-! ## Byte sequences (R11, R12) -/

/-- `be_N(v)`, the `n` low bytes of `v`, most significant byte first (R11). -/
def be (n : Nat) (v : BitVec 32) : List Byte := (List.range n).map fun i => v.extractLsb' (8 * (n - 1 - i)) 8

/-- `unbe(s)`: the number whose base-256 digits are `s`, most significant first (R11). -/
def unbe (s : List Byte) : Nat := s.foldl (fun acc b => acc * 256 + b.toNat) 0

/-- `s[i .. i+n-1]`; on the window this is `MemRead(i, n)` (R11, R12). -/
def slice (s : List Byte) (i n : Nat) : List Byte := (s.drop i).take n

/-! ## Values -/

/-- Whether a timestamp operand is in range: a narrow block requires `t[31:16]` to be 0 (R84). -/
def timestampFits (cfg : Config) (t : BitVec 32) : Bool := cfg.wide || t.extractLsb' 16 16 == 0#16

/-- Whether the bits below a packed record are clear: a narrow block requires DECODE's bits [15:0] to be 0 (R84). -/
def recordFits (cfg : Config) (pl : Payload) : Bool := cfg.wide || pl.extractLsb' 0 16 == 0#16

/-- `pins_out(x)`, the pin value reported to the consumer (R126). -/
def pinsOut (cfg : Config) (x : Byte) : Byte := if cfg.pinDecodeMask then x &&& 0x0F#8 else x

/-- `tick_sub(b, a) = (b - a) mod 2^TW`, the elapsed ticks from `a` to a later `b`. "This is a pure function, not a
command; it is the arithmetic every consumer of ticks must use" (R103). -/
def tickSub (cfg : Config) (b a : BitVec 32) : BitVec 32 :=
  if cfg.wide then b - a else (b - a) &&& 0x0000FFFF#32

end Machine

end Sys2Proof
end

