-- ==== Sys2Proof/Machine/State.lean ====
section
/-! DEFINITION. The state of a block as plain data (spec/10_state.md), the response and record forms (R83, R161), the
reasons a step can stop, and the state after power-on reset (R32, R210). -/

namespace Sys2Proof.Machine

/-- A stop with a fault. The block has none: "No behaviour of this block is treated as `fault` or `stuck`"
(spec/93_implementation_defined.md), and the block has no traps (R197). Nobody raises one. -/
inductive Fault where
  deriving DecidableEq, Repr

/-- A stop with a refusal. An ILLEGAL command is not one: it has a response and a next state (R81, R84, R191). -/
inductive Refusal where
  /-- Raised by an arm of `exec` for an instruction that has no meaning yet. No arm raises it. Safe. -/
  | notModelled (mnemonic : String)
  /-- Raised by `step` in a block built with `START_MARKER = END_MARKER`: "a model must refuse a configuration with
  `START_MARKER = END_MARKER`" (R7). Safe: such a block is not admitted. -/
  | equalMarkers
  deriving DecidableEq, Repr

/-! ## Responses and records -/

/-- The status of a response (R190). -/
inductive Status where
  | ok
  | malformed
  | illegal
  deriving DecidableEq, Repr

/-- The response of a command: "a field a command's rule does not set is 0" (R83). -/
structure Response where
  /-- `OK`, `MALFORMED` or `ILLEGAL`. -/
  status : Status := .ok
  /-- Detail of a status that is not OK. -/
  info : Byte := 0#8
  /-- NOW: the tick; ENCODE and EMIT: the packed record. -/
  value : BitVec 64 := 0#64
  /-- SYNC_IN: a frame was accepted; DECODE: the status is OK. -/
  valid : Bool := false
  /-- The decoded sequence counter; EMIT: the sequence number used (R121). -/
  counter : Byte := 0#8
  /-- The decoded timestamp, zero-extended. -/
  timestamp : BitVec 32 := 0#32
  /-- The decoded pin-state byte, whole. -/
  pinByte : Byte := 0#8
  /-- The pin value reported to the consumer (R126). -/
  pins : Byte := 0#8
  /-- SYNC_IN: the accepted frame's sequence discontinuity. -/
  gap : Bool := false
  /-- SYNC_IN and SYNC_CLEAR: how many window bytes this command discarded. -/
  ndisc : Byte := 0#8
  deriving DecidableEq, Repr

/-- A response and the port that gave it. -/
structure Reply where
  port : Port
  response : Response
  deriving DecidableEq, Repr

/-- A record on the host unit's output port (R155, R161). -/
structure Record where
  counter : Byte
  timestamp : BitVec 32
  pinByte : Byte
  pins : Byte
  gap : Bool
  deriving DecidableEq, Repr

/-! ## What reaches the block from outside -/

/-- The next thing that happens to a block: a word at a command port (R80), or power-on reset, "a step of its own" (R210),
with the draws it takes (R8). -/
inductive Input where
  | command (port : Port) (word : CmdWord)
  | powerOn (draws : Draws)
  deriving DecidableEq, Repr

/-! ## The registers -/

/-- The device unit's registers (R20). -/
structure Dev where
  /-- `LO`, the hardware counter (R21). -/
  lo : BitVec 16
  /-- `OVF`, the overflow counter. It "exists only in the wide variant" (R22): no meaning reads or writes it in a narrow
  block, and it stays 0 there (notes/assumptions/4.md). -/
  ovf : BitVec 16
  /-- `SEQ`, the sequence counter (R23). -/
  seq : Byte
  deriving DecidableEq, Repr

/-- The host unit's registers (R20). -/
structure HostUnit where
  /-- `WIN` at the offsets that hold a byte, first byte first; `WLEN` is its length (R27). The bytes of `WIN` beyond `WLEN`
  "are not part of the window and no rule reads them" (notes/assumptions/5.md). -/
  win : List Byte
  /-- `LAST`, the counter of the most recently accepted frame (R28). -/
  last : Byte
  /-- `LAST_VALID`, whether any frame has been accepted since reset (R28). -/
  lastValid : Bool
  deriving DecidableEq, Repr

/-- `WLEN`, the fill count of the window (R27). -/
def HostUnit.wlen (h : HostUnit) : Nat := h.win.length

/-- A block: its build constants, the registers of its two units, and its interface (what has come out of the output port
and the command ports, and what will arrive). -/
structure State where
  /-- The build constants (R25). No step writes them. -/
  cfg : Config
  /-- The device unit's registers. -/
  dev : Dev
  /-- The host unit's registers. -/
  host : HostUnit
  /-- The records placed on the host unit's output port, oldest first: "A record is never withdrawn" (R161). -/
  output : List Record
  /-- The responses given, oldest first. Nothing reads them later (R29). -/
  responses : List Reply
  /-- What arrives next, in the order in which it arrives. Any interleaving of the agents' commands is such a list (R13,
  R55, R56). -/
  input : List Input
  deriving DecidableEq, Repr

/-! ## Reset -/

/-- The device unit after power-on with draws `d` (R32). -/
def Dev.powerOn (cfg : Config) (d : Draws) : Dev :=
  { lo := d.loInit, ovf := if cfg.wide then d.ovfInit else 0#16, seq := d.seqInit }

/-- The host unit after power-on with draws `d`: the window empty, `LAST_VALID = 0` (R32). -/
def HostUnit.powerOn (d : Draws) : HostUnit := { win := [], last := d.lastInit, lastValid := false }

/-- The block with build constants `cfg` right after power-on with draws `d` (R32, R210): nothing has come out of it and
nothing is about to arrive. "A model takes each draw as a free input; a claim holds for every value of the draws." -/
def State.resetWith (cfg : Config) (d : Draws) : State :=
  { cfg, dev := .powerOn cfg d, host := .powerOn d, output := [], responses := [], input := [] }

/-- One block right after power-on. DESIGN CHOICE, unsafe: its build constants (notes/assumptions/1.md) and its draws
(notes/assumptions/2.md) are ones the spec leaves open; a claim about reset is stated about `State.resetWith`. -/
def State.reset : State := .resetWith .illustration .zero

end Sys2Proof.Machine
end

