-- ==== Sys2Proof/Machine/Flags.lean ====
section
/-! DEFINITION. The bits that a response reports. The block stores no flags: every outcome is a field of a response (R29). -/

namespace Sys2Proof.Machine

/-- The code of a status (R83, R190). -/
def Status.code : Status → BitVec 2
  | .ok => 0#2
  | .malformed => 1#2
  | .illegal => 2#2

/-- The `info` of a record: bit 0 says that its first byte is not the start marker, bit 1 that its last byte is not the
end marker (R122, R192). -/
def malformedInfo (cfg : Config) (r : List Byte) : Byte :=
  (if recordByte r 0 = cfg.startMarker then 0#8 else 1#8) |||
  (if recordByte r cfg.offEnd = cfg.endMarker then 0#8 else 2#8)

/-- The `gap` bit of an accepted frame with counter `c`:
`(LAST_VALID == 1) and (c != (LAST + 1) mod 256)` (R159). -/
def gapBit (h : HostUnit) (c : Byte) : Bool := h.lastValid && c != h.last + 1#8

end Sys2Proof.Machine
end

