-- ==== Sys2Proof/Machine/Ops.lean ====
section
/-! DEFINITION. The named operations that the meanings share: responding, raising a status, the window, the output port,
power-on, and taking the next input. -/

namespace Sys2Proof.Machine

/-! ## Ending a command (R12, R83, R190) -/

/-- `respond OK{...}`: the command ends with this response on its port (R12). -/
def State.respond (s : State) (port : Port) (r : Response) : State :=
  { s with responses := s.responses ++ [{ port, response := r }] }

/-- `raise STATUS(info)`: the command ends "with that status and the given info, writing no state" (R12, R191). This is
all that an error does: "no state is saved, no mode changes, no mask changes, no stack is touched, and control goes to no
vector" (R197), and nothing returns from it (R198). -/
def State.raise (s : State) (port : Port) (status : Status) (info : Byte) : State := s.respond port { status, info }

/-- `raise ILLEGAL` for the cause that shut a command out (R193). -/
def State.raiseIllegal (s : State) (port : Port) (why : IllegalCause) : State := s.raise port .illegal why.info

/-- `raise MALFORMED(info)`, by DECODE at the HOST port (R192). -/
def State.raiseMalformed (s : State) (info : Byte) : State := s.raise .host .malformed info

/-! ## The window (R12, R27) -/

/-- `MemRead(i, n)` (R12). -/
def State.memRead (s : State) (i n : Nat) : List Byte := slice s.host.win i n

/-- `Append(b)`: `b` is written at offset `WLEN` and `WLEN` grows by one (R12). -/
def State.append (s : State) (b : Byte) : State := { s with host := { s.host with win := s.host.win ++ [b] } }

/-- `DropFront(n)`: the first `n` bytes are removed, each later byte moves `n` offsets down (R12). -/
def State.dropFront (s : State) (n : Nat) : State := { s with host := { s.host with win := s.host.win.drop n } }

/-! ## The output port (R12, R161) -/

/-- `emit(rec)`: one decoded record is placed on the host unit's output port (R12). -/
def State.emit (s : State) (rec : Record) : State := { s with output := s.output ++ [rec] }

/-! ## Power-on and input -/

/-- Power-on reset: every register goes to its reset value, the draws being `d`; "no response is returned for it" (R210).
The build constants stay, and what the block has already put out is not withdrawn. -/
def State.powerOn (s : State) (d : Draws) : State :=
  { s with dev := .powerOn s.cfg d, host := .powerOn d }

/-- The next input is taken: `rest` is what still has to arrive. -/
def State.withInput (s : State) (rest : List Input) : State := { s with input := rest }

end Sys2Proof.Machine
end

