-- ==== Sys2Proof/Machine/Clock.lean ====
section
/-! DEFINITION. The Clock: TICK and NOW (spec/40_clock.md). -/

namespace Sys2Proof.Machine

/-- The clock one tick later: `LO` advances modulo 2^16, and in the wide variant `OVF` advances in the same step when `LO`
wraps (R100). -/
def Dev.tick (cfg : Config) (d : Dev) : Dev :=
  { d with
    lo := d.lo + 1#16
    ovf := if cfg.wide && d.lo == 0xFFFF#16 then d.ovf + 1#16 else d.ovf }

/-- The current tick: `LO` in the narrow variant, `(OVF << 16) | LO` in the wide one, both halves of one state (R101,
R102). -/
def Dev.now (cfg : Config) (d : Dev) : BitVec 32 :=
  if cfg.wide then (d.ovf.setWidth 32 <<< 16) ||| d.lo.setWidth 32 else d.lo.setWidth 32

/-- TICK (R100). -/
def execTick (s : State) : Host.Outcome State Fault Refusal :=
  .next ({ s with dev := s.dev.tick s.cfg }.respond .dev {})

/-- NOW (R101). -/
def execNow (s : State) : Host.Outcome State Fault Refusal :=
  .next (s.respond .dev { value := (s.dev.now s.cfg).setWidth 64 })

end Sys2Proof.Machine
end

