-- ==== Sys2Proof/Machine/Codec.lean ====
section
/-! DEFINITION. The Frame Codec: ENCODE, EMIT and DECODE (spec/41_codec.md).

The two rows of a command are its words in the two width variants. Each meaning says what a block does with its row's
word, in a block of either width: a wide row's word in a narrow block is ILLEGAL(2) where its operand is out of range and is
otherwise the narrow command; a narrow row's word in a wide block is the wide command (notes/assumptions/6.md). -/

namespace Sys2Proof.Machine

/-- `enc(c, t, p) = [START_MARKER, c] ++ be_TSB(t[TW-1:0]) ++ [zext_8(p[3:0]), END_MARKER]` (R120). -/
def enc (cfg : Config) (c : Byte) (t : BitVec 32) (p : BitVec 4) : List Byte :=
  [cfg.startMarker, c] ++ be cfg.tsb t ++ [p.setWidth 8, cfg.endMarker]

/-- What `dec` reports of a record. -/
structure Fields where
  counter : Byte
  timestamp : BitVec 32
  pinByte : Byte
  pins : Byte
  deriving DecidableEq, Repr

/-- The fields of a record, read by position and compared with nothing (R73, R124). -/
def parse (cfg : Config) (r : List Byte) : Fields :=
  { counter := recordByte r offSeq
    timestamp := BitVec.ofNat 32 (unbe (slice r offTs cfg.tsb))
    pinByte := recordByte r cfg.offPin
    pins := pinsOut cfg (recordByte r cfg.offPin) }

/-- The result of `dec` (R122). -/
inductive DecResult where
  | ok (f : Fields)
  | malformed (info : Byte)
  deriving DecidableEq, Repr

/-- `dec(r)`: the marker pair is the whole check (R122, R123). -/
def dec (cfg : Config) (r : List Byte) : DecResult :=
  if malformedInfo cfg r = 0#8 then .ok (parse cfg r) else .malformed (malformedInfo cfg r)

/-! ## The shared command bodies -/

/-- ENCODE with the operands `c`, `t`, `p` (R120). -/
def State.encodeFrame (s : State) (c : Byte) (t : BitVec 32) (p : BitVec 4) : State :=
  if timestampFits s.cfg t then s.respond .dev { value := pack (enc s.cfg c t p) }
  else s.raiseIllegal .dev .reservedBitSet

/-- EMIT with the operands `t`, `p`: the frame carries `SEQ`, which then advances (R121). -/
def State.emitFrame (s : State) (t : BitVec 32) (p : BitVec 4) : State :=
  if timestampFits s.cfg t then
    { s with dev := { s.dev with seq := s.dev.seq + 1#8 } }.respond .dev
      { value := pack (enc s.cfg s.dev.seq t p), counter := s.dev.seq }
  else s.raiseIllegal .dev .reservedBitSet

/-- DECODE of the record packed in a payload (R122). -/
def State.decodeFrame (s : State) (pl : Payload) : State :=
  if recordFits s.cfg pl then
    match dec s.cfg (unpack s.cfg.rs pl) with
    | .ok f =>
      s.respond .host
        { valid := true, counter := f.counter, timestamp := f.timestamp, pinByte := f.pinByte, pins := f.pins }
    | .malformed info => s.raiseMalformed info
  else s.raiseIllegal .host .reservedBitSet

/-! ## The meanings -/

/-- ENCODE, the wide row's word (R120). -/
def execEncodeWide (c : Byte) (t : BitVec 32) (p : BitVec 4) (s : State) : Host.Outcome State Fault Refusal :=
  .next (s.encodeFrame c t p)

/-- ENCODE, the narrow row's word (R120). -/
def execEncodeNarrow (c : Byte) (t : BitVec 16) (p : BitVec 4) (s : State) : Host.Outcome State Fault Refusal :=
  .next (s.encodeFrame c (t.setWidth 32) p)

/-- EMIT, the wide row's word (R121). -/
def execEmitWide (t : BitVec 32) (p : BitVec 4) (s : State) : Host.Outcome State Fault Refusal :=
  .next (s.emitFrame t p)

/-- EMIT, the narrow row's word (R121). -/
def execEmitNarrow (t : BitVec 16) (p : BitVec 4) (s : State) : Host.Outcome State Fault Refusal :=
  .next (s.emitFrame (t.setWidth 32) p)

/-- DECODE, the wide row's word (R122). -/
def execDecodeWide (r : List Byte) (s : State) : Host.Outcome State Fault Refusal :=
  .next (s.decodeFrame (pack r))

/-- DECODE, the narrow row's word (R122). -/
def execDecodeNarrow (r : List Byte) (s : State) : Host.Outcome State Fault Refusal :=
  .next (s.decodeFrame (pack r))

end Sys2Proof.Machine
end

