-- ==== Sys2Proof/Machine/Synchronizer.lean ====
section
/-! DEFINITION. The Host Stream Synchronizer: SYNC_IN and SYNC_CLEAR (spec/42_synchronizer.md). -/

namespace Sys2Proof.Machine

/-! ## Internal steps -/

/-- The four actions of R151. -/
inductive SyncAction where
  | wait
  | dropResync
  | dropBadEnd
  | accept
  deriving DecidableEq, Repr

/-- `sync_action()`, its tests in R151's order: resynchronize first, then the length, then the end marker. -/
def State.syncAction (s : State) : SyncAction :=
  if s.host.wlen = 0 then .wait
  else if s.memRead 0 1 ≠ [s.cfg.startMarker] then .dropResync
  else if s.host.wlen < s.cfg.rs then .wait
  else if s.memRead (s.cfg.rs - 1) 1 ≠ [s.cfg.endMarker] then .dropBadEnd
  else .accept

/-- The continuity registers after a frame with counter `c` (R159). -/
def State.observe (s : State) (c : Byte) : State := { s with host := { s.host with last := c, lastValid := true } }

/-- The record that an accept places on the output port: the first `RS` window bytes, decoded, with the `gap` bit that
the continuity registers give (R155, R159). `dec` never answers Malformed here, since the markers have just been tested. -/
def State.candidate (s : State) : Record :=
  let f := parse s.cfg (s.memRead 0 s.cfg.rs)
  { counter := f.counter, timestamp := f.timestamp, pinByte := f.pinByte, pins := f.pins,
    gap := gapBit s.host f.counter }

/-- `accept()`: the candidate is observed for continuity, emitted, and removed from the window (R155). -/
def State.accept (s : State) : State :=
  ((s.observe s.candidate.counter).emit s.candidate).dropFront s.cfg.rs

/-- What `process()` leaves: the block, the record accepted if any, and how many bytes it discarded. -/
structure Processed where
  state : State
  acc : Option Record
  nd : Nat
  deriving DecidableEq, Repr

/-- The step loop of `process()` (R156), from `acc` and `nd`. "every action other than WAIT makes `WLEN` smaller, so at most
`WLEN` actions precede WAIT": the first argument bounds the actions, and `State.process` starts it at `WLEN`. -/
def processLoop : Nat → Option Record → Nat → State → Processed
  | 0, acc, nd, s => { state := s, acc, nd }
  | fuel + 1, acc, nd, s =>
    match s.syncAction with
    | .wait => { state := s, acc, nd }
    | .dropResync => processLoop fuel acc (nd + 1) (s.dropFront 1)
    | .dropBadEnd => processLoop fuel acc (nd + 1) (s.dropFront 1)
    | .accept => processLoop fuel (some s.candidate) nd s.accept

/-- `process()` (R156). -/
def State.process (s : State) : Processed := processLoop s.host.wlen none 0 s

/-- The response of a SYNC_IN that accepted `acc` and discarded `nd` bytes (R158). -/
def syncResponse (acc : Option Record) (nd : Nat) : Response :=
  match acc with
  | none => { ndisc := BitVec.ofNat 8 nd }
  | some r =>
    { valid := true, counter := r.counter, timestamp := r.timestamp, pinByte := r.pinByte, pins := r.pins, gap := r.gap,
      ndisc := BitVec.ofNat 8 nd }

/-! ## The meanings -/

/-- SYNC_IN (R158). -/
def execSyncIn (b : Byte) (s : State) : Host.Outcome State Fault Refusal :=
  let done := (s.append b).process
  .next (done.state.respond .host (syncResponse done.acc done.nd))

/-- SYNC_CLEAR: the window is discarded; `LAST` and `LAST_VALID` are unchanged (R160). -/
def execSyncClear (s : State) : Host.Outcome State Fault Refusal :=
  .next ((s.dropFront s.host.wlen).respond .host { ndisc := BitVec.ofNat 8 s.host.wlen })

end Sys2Proof.Machine
end

