-- ==== Sys2Proof/Machine/Dispatch.lean ====
section
/-! DEFINITION. The dispatch: one arm for each constructor of Instr. -/

namespace Sys2Proof.Machine

def exec (i : Instr) (s : State) : Host.Outcome State Fault Refusal :=
  match i with
  | .tick => Sys2Proof.Machine.execTick s
  | .now => Sys2Proof.Machine.execNow s
  | .encodeWide c t p => Sys2Proof.Machine.execEncodeWide c t p s
  | .encodeNarrow c t p => Sys2Proof.Machine.execEncodeNarrow c t p s
  | .emitWide t p => Sys2Proof.Machine.execEmitWide t p s
  | .emitNarrow t p => Sys2Proof.Machine.execEmitNarrow t p s
  | .decodeWide r => Sys2Proof.Machine.execDecodeWide r s
  | .decodeNarrow r => Sys2Proof.Machine.execDecodeNarrow r s
  | .syncIn b => Sys2Proof.Machine.execSyncIn b s
  | .syncClear => Sys2Proof.Machine.execSyncClear s

end Sys2Proof.Machine
end

