-- ==== Sys2Proof/Machine/Ports.lean ====
section
/-! DEFINITION. What an input does when it reaches the block (R80, R81, R84, R210). -/

namespace Sys2Proof.Machine

/-- What an input does to a block: a command runs, or its port answers ILLEGAL (R81, R84); power-on resets the block
(R210). -/
def deliver (a : Input) (s : State) : Host.Outcome State Fault Refusal :=
  match a with
  | .powerOn d => .next (s.powerOn d)
  | .command port w =>
    match decode s.cfg port w with
    | .instr i => exec i s
    | .illegal why => .next (s.raiseIllegal port why)

end Sys2Proof.Machine
end

