-- ==== Sys2Proof/Machine/Step.lean ====
section
/-! DEFINITION. One step of the block: it takes what arrives next (R13, R56). -/

namespace Sys2Proof.Machine

/-- One step. A block whose two markers are equal is refused (R7). With nothing arriving, nothing happens: the block has
no program of its own (R24; notes/assumptions/3.md). -/
def step (s : State) : Host.Outcome State Fault Refusal :=
  if s.cfg.wf then
    match s.input with
    | [] => .next s
    | a :: rest => deliver a (s.withInput rest)
  else .refused .equalMarkers

/-- `s` with a table row's command word arriving next, at the port its opcode belongs to. -/
def State.withFetchWord (s : State) (nbits w : Nat) : State :=
  { s with input := .command (portOfWord (tableWord nbits w)) (tableWord nbits w) :: s.input }

end Sys2Proof.Machine
end

