-- ==== Sys2Proof/Machine/Assembler.lean ====
section
/-! DEFINITION. The notation for commands: the assembler and its pseudo-instructions (R86, R87). It stands beside the machine;
no step reads it. -/

namespace Sys2Proof.Machine

/-! ## Source lines, as numbers -/

/-- A line of R86 (the first seven) or R87 (the last three), its operands still unchecked numbers. -/
inductive AsmLine where
  | tick
  | now
  | encode (c t p : Nat)
  | emit (t p : Nat)
  | decode (r : List Nat)
  | syncIn (b : Nat)
  | syncClear
  /-- `TICKS n`. -/
  | ticks (n : Nat)
  /-- `SYNC_FEED b0 b1 ... bk`: one host read of a chunk. -/
  | syncFeed (bs : List Nat)
  /-- `EDGE t0, p0, t1, p1`: the pair of frames of a transition. -/
  | edge (t0 p0 t1 p1 : Nat)
  deriving DecidableEq, Repr

/-- A list of byte operands; a number over 255 is refused (R86). -/
def asmBytes (bs : List Nat) : Option (List Byte) :=
  if bs.all (· ≤ 255) then some (bs.map (BitVec.ofNat 8)) else none

/-- `ENCODE c, t, p`; refused where `c > 255`, `t >= 2^TW` or `p > 15` (R86). -/
def asmEncode (cfg : Config) (c t p : Nat) : Option Instr :=
  if c ≤ 255 ∧ t < 2 ^ cfg.tw ∧ p ≤ 15 then
    some (if cfg.wide then .encodeWide (BitVec.ofNat 8 c) (BitVec.ofNat 32 t) (BitVec.ofNat 4 p)
      else .encodeNarrow (BitVec.ofNat 8 c) (BitVec.ofNat 16 t) (BitVec.ofNat 4 p))
  else none

/-- `EMIT t, p`; refused where `t >= 2^TW` or `p > 15` (R86). -/
def asmEmit (cfg : Config) (t p : Nat) : Option Instr :=
  if t < 2 ^ cfg.tw ∧ p ≤ 15 then
    some (if cfg.wide then .emitWide (BitVec.ofNat 32 t) (BitVec.ofNat 4 p)
      else .emitNarrow (BitVec.ofNat 16 t) (BitVec.ofNat 4 p))
  else none

/-- `DECODE r0 r1 ... r(RS-1)`; refused where the byte count is not `RS` (R86). -/
def asmDecode (cfg : Config) (r : List Nat) : Option Instr :=
  if r.length = cfg.rs then
    (asmBytes r).map fun bs => if cfg.wide then .decodeWide bs else .decodeNarrow bs
  else none

/-- The instructions that a line stands for, or none where the assembler refuses it (R86, R87). `TICKS 0` and a feed of no
bytes are no command. -/
def assemble (cfg : Config) : AsmLine → Option (List Instr)
  | .tick => some [.tick]
  | .now => some [.now]
  | .encode c t p => (asmEncode cfg c t p).map ([·])
  | .emit t p => (asmEmit cfg t p).map ([·])
  | .decode r => (asmDecode cfg r).map ([·])
  | .syncIn b => (asmBytes [b]).map (·.map .syncIn)
  | .syncClear => some [.syncClear]
  | .ticks n => some (List.replicate n .tick)
  | .syncFeed bs => (asmBytes bs).map (·.map .syncIn)
  | .edge t0 p0 t1 p1 =>
    match asmEmit cfg t0 p0, asmEmit cfg t1 p1 with
    | some i, some j => some [i, j]
    | _, _ => none

/-- An instruction as it arrives: its word at its unit's port (R80, R81). -/
def arrival (i : Instr) : Input := .command i.unit (encode i)

/-- The inputs that a program stands for, in its order (R56). -/
def program (is : List Instr) : List Input := is.map arrival

/-! ## Source text -/

/-- The value of a decimal or hex digit. -/
def digitValue (ch : Char) : Option Nat :=
  let n := ch.toNat
  if 0x30 ≤ n ∧ n ≤ 0x39 then some (n - 0x30)
  else if 0x41 ≤ n ∧ n ≤ 0x46 then some (n - 0x37)
  else if 0x61 ≤ n ∧ n ≤ 0x66 then some (n - 0x57)
  else none

/-- Digits in a base, continuing from `acc`; none where a character is no digit of that base. -/
def digitsLoop (base : Nat) : List Char → Nat → Option Nat
  | [], acc => some acc
  | ch :: rest, acc =>
    match digitValue ch with
    | some d => if d < base then digitsLoop base rest (acc * base + d) else none
    | none => none

/-- "Numbers are decimal or `0x` hex" (R86). -/
def numberOf : List Char → Option Nat
  | [] => none
  | ['0', 'x'] => none
  | '0' :: 'x' :: rest => digitsLoop 16 rest 0
  | digits => digitsLoop 10 digits 0

/-- A byte of a byte list: two hex digits (R86: "a byte list is hex bytes separated by spaces"). -/
def hexByteOf : List Char → Option Nat
  | [a, b] => digitsLoop 16 [a, b] 0
  | _ => none

/-- `SYNC_IN`'s operand: two hex digits, as spec/95_test_vectors.md writes it (`SYNC_IN A5`), otherwise a number
(notes/assumptions/9.md). -/
def syncInOperandOf (word : List Char) : Option Nat :=
  match word with
  | [_, _] => hexByteOf word
  | _ => numberOf word

/-- Text cut at each `sep`. -/
def cutAt (sep : Char) : List Char → List (List Char)
  | [] => [[]]
  | ch :: rest =>
    match cutAt sep rest with
    | [] => [[ch]]
    | word :: words => if ch = sep then [] :: word :: words else (ch :: word) :: words

/-- The words of a text, the spaces between them left out. -/
def wordsOf (text : List Char) : List (List Char) := (cutAt ' ' text).filter fun w => !w.isEmpty

/-- Every element read by `f`, or none where one cannot be read. -/
def readAll (f : List Char → Option Nat) : List (List Char) → Option (List Nat)
  | [] => some []
  | w :: ws =>
    match f w, readAll f ws with
    | some n, some ns => some (n :: ns)
    | _, _ => none

/-- A list of numbers separated by commas, spaces around each allowed. -/
def numbersOf (text : List Char) : Option (List Nat) :=
  readAll (fun piece => match wordsOf piece with
    | [w] => numberOf w
    | _ => none) (cutAt ',' text)

/-- A byte list (R86). -/
def bytesOf (text : List Char) : Option (List Nat) := readAll hexByteOf (wordsOf text)

/-- The seven mnemonics of R80 and the three pseudo-instructions of R87. -/
inductive Mnemonic where
  | tick
  | now
  | encode
  | emit
  | decode
  | syncIn
  | syncClear
  | ticks
  | syncFeed
  | edge
  deriving DecidableEq, Repr

/-- How each mnemonic is spelt. -/
def Mnemonic.spelling : Mnemonic → List Char
  | .tick => ['T', 'I', 'C', 'K']
  | .now => ['N', 'O', 'W']
  | .encode => ['E', 'N', 'C', 'O', 'D', 'E']
  | .emit => ['E', 'M', 'I', 'T']
  | .decode => ['D', 'E', 'C', 'O', 'D', 'E']
  | .syncIn => ['S', 'Y', 'N', 'C', '_', 'I', 'N']
  | .syncClear => ['S', 'Y', 'N', 'C', '_', 'C', 'L', 'E', 'A', 'R']
  | .ticks => ['T', 'I', 'C', 'K', 'S']
  | .syncFeed => ['S', 'Y', 'N', 'C', '_', 'F', 'E', 'E', 'D']
  | .edge => ['E', 'D', 'G', 'E']

/-- Every mnemonic. -/
def Mnemonic.all : List Mnemonic :=
  [.tick, .now, .encode, .emit, .decode, .syncIn, .syncClear, .ticks, .syncFeed, .edge]

/-- The line with this mnemonic and this operand text, or none where the text is not of the form R86 or R87 gives. -/
def lineOf (m : Mnemonic) (text : List Char) : Option AsmLine :=
  match m with
  | .tick => if (wordsOf text).isEmpty then some .tick else none
  | .now => if (wordsOf text).isEmpty then some .now else none
  | .syncClear => if (wordsOf text).isEmpty then some .syncClear else none
  | .encode => match numbersOf text with
    | some [c, t, p] => some (.encode c t p)
    | _ => none
  | .emit => match numbersOf text with
    | some [t, p] => some (.emit t p)
    | _ => none
  | .edge => match numbersOf text with
    | some [t0, p0, t1, p1] => some (.edge t0 p0 t1 p1)
    | _ => none
  | .ticks => match numbersOf text with
    | some [n] => some (.ticks n)
    | _ => none
  | .decode => (bytesOf text).map .decode
  | .syncFeed => (bytesOf text).map .syncFeed
  | .syncIn => match wordsOf text with
    | [w] => (syncInOperandOf w).map .syncIn
    | _ => none

/-- A source line read from its text: a mnemonic, then its operands after a space (R86, R87). -/
def parseLine (text : List Char) : Option AsmLine :=
  match Mnemonic.all.find? fun m => m.spelling == text.takeWhile (· != ' ') with
  | some m => lineOf m (text.dropWhile (· != ' '))
  | none => none

/-! ## Command words as text -/

/-- An upper-case hex digit. -/
def hexDigit (d : BitVec 4) : Char := Char.ofNat (if d.toNat < 10 then 0x30 + d.toNat else 0x37 + d.toNat)

/-- "A command word is written as 18 hex digits, opcode first" (R86), after `0x`. -/
def wordText (w : CmdWord) : List Char :=
  ['0', 'x'] ++ (List.range 18).map fun i => hexDigit (w.extractLsb' (68 - 4 * i) 4)

end Sys2Proof.Machine
end

