-- ==== Sys2Proof/Machine/Text.lean ====
section
/-! DEFINITION. The host's textual output: one line for each record on the output port (R162). -/

namespace Sys2Proof.Machine

/-- The ASCII decimal digits of `n`, most significant first, in front of `acc`; the first argument bounds their number. -/
def decimalLoop : Nat → Nat → List Byte → List Byte
  | 0, _, acc => acc
  | fuel + 1, n, acc =>
    if n < 10 then BitVec.ofNat 8 (0x30 + n) :: acc
    else decimalLoop fuel (n / 10) (BitVec.ofNat 8 (0x30 + n % 10) :: acc)

/-- `dec(n)` of R162: "the ASCII decimal digits of `n` (bytes `0x30` to `0x39`), most significant digit first, with no sign
and no leading zeros, and `dec(0) = [0x30]`". Ten digits hold every 32-bit number. -/
def decimal (n : BitVec 32) : List Byte := decimalLoop 10 n.toNat []

/-- The text line of a record: counter, timestamp and `pins`, one space between them and a line feed at the end. "`pin_byte`
and `gap` are not printed" (R162). -/
def Record.line (r : Record) : List Byte :=
  decimal (r.counter.setWidth 32) ++ [0x20#8] ++ decimal r.timestamp ++ [0x20#8] ++
  decimal (r.pins.setWidth 32) ++ [0x0A#8]

/-- The host's textual output so far: "one line per record" (R162). -/
def State.text (s : State) : List Byte := s.output.flatMap Record.line

end Sys2Proof.Machine
end

