-- ==== Sys2Proof/Safety.lean ====
section
/-! DEFINITION. The terms that claims use: which states are reachable in principle (the invariant), runs over a list of
inputs, and the source's own chunk-wise procedure, which the byte-wise machine refines (R163). -/

namespace Sys2Proof.Machine

/-! ## Invariants -/

/-- R157: "`WLEN = 0`, or `WIN[0] = START_MARKER` and `WLEN < RS`". -/
def State.Quiescent (s : State) : Prop :=
  s.host.win = [] ∨ (s.host.win.head? = some s.cfg.startMarker ∧ s.host.win.length < s.cfg.rs)

/-- A narrow block has no `OVF` (R22): in the model the field stays 0 (notes/assumptions/4.md). -/
def State.OvfAbsent (s : State) : Prop := s.cfg.wide = false → s.dev.ovf = 0#16

/-- Every record on the output port could have been decoded by this block: its timestamp is a Tick (`TW` bits, R83) and its
`pins` are what R126 makes of its pin byte. -/
def State.RecordsDecoded (s : State) : Prop :=
  ∀ r ∈ s.output, r.timestamp.toNat < 2 ^ s.cfg.tw ∧ r.pins = pinsOut s.cfg r.pinByte

/-- The invariant of the block: an admitted configuration, a quiescent window, no `OVF` in a narrow block, decoded records
only. -/
structure State.Inv (s : State) : Prop where
  markers : s.cfg.wf = true
  quiescent : s.Quiescent
  ovfAbsent : s.OvfAbsent
  recordsDecoded : s.RecordsDecoded

/-! ## Runs -/

/-- `k` steps of a block, up to the first that does not answer a next state. -/
def steps : Nat → State → Host.Outcome State Fault Refusal
  | 0, s => .next s
  | k + 1, s =>
    match step s with
    | .next t => steps k t
    | .fault r => .fault r
    | .refused r => .refused r

/-- The run of a block over a list of inputs: one step for each. -/
def runInputs (ins : List Input) (s : State) : Host.Outcome State Fault Refusal :=
  steps ins.length (s.withInput ins)

/-- The inputs of a byte stream: one SYNC_IN for each byte (R55, R87). -/
def feed (bs : List Byte) : List Input := program (bs.map .syncIn)

/-- The inputs that one unit sees: the words at its port, and power-on. -/
def Input.reaches (u : Port) : Input → Bool
  | .command port _ => port == u
  | .powerOn _ => true

/-- The responses that came from one unit. -/
def State.repliesOf (s : State) (u : Port) : List Reply := s.responses.filter fun r => r.port == u

/-- The responses that `t` holds beyond those of `s`. -/
def newReplies (s t : State) : List Reply := t.responses.drop s.responses.length

/-- Whether an input gives the synchronizer a byte: a word that its port reads as SYNC_IN. -/
def Input.givesByte (cfg : Config) : Input → Bool
  | .powerOn _ => false
  | .command port w =>
    match decode cfg port w with
    | .instr (.syncIn _) => true
    | _ => false

/-- The total of `ndisc` over a list of responses. -/
def totalDiscards (rs : List Reply) : Nat := (rs.map fun r => r.response.ndisc.toNat).sum

/-! ## The source's procedure for chunks -/

/-- One read of the source's procedure: "Append newly read bytes to the window", then resynchronize and decode until it
must wait (R163). Answers the block and how many bytes were discarded. -/
def readChunk (chunk : List Byte) (s : State) : State × Nat :=
  let done := { s with host := { s.host with win := s.host.win ++ chunk } }.process
  (done.state, done.nd)

/-- The source's procedure over a list of chunks, empty ones included; `nd` counts the discards. -/
def readChunks : List (List Byte) → State → Nat → State × Nat
  | [], s, nd => (s, nd)
  | chunk :: rest, s, nd => readChunks rest (readChunk chunk s).1 (nd + (readChunk chunk s).2)

end Sys2Proof.Machine
end

