-- ==== Sys2Proof/Certificates/Slice0/Obligations.lean ====
section
/-! DEFINITION. The statements for the provers. Each docstring names the rule of spec/ that the statement formalises. A
statement speaks of every state, so of every build configuration and every value of the draws. -/

open Sys2Proof Sys2Proof.Machine

/-! ## The Clock -/

/-- R100: `LO` advances by one modulo 2^16; in the wide variant, and only there, `OVF` advances in the same step when `LO`
is 0xFFFF. Nothing else changes, and the response is OK with every field 0. At the DEV port the command is opcode 0x01 with
payload 0, and any other payload is ILLEGAL(2). -/
def Obligations.TickAdvancesCounters : Prop :=
  ∀ s : State, ∃ t, exec .tick s = .next t ∧
    t.dev.lo.toNat = (s.dev.lo.toNat + 1) % 65536 ∧
    t.dev.ovf.toNat =
      (if s.cfg.wide = true ∧ s.dev.lo.toNat = 65535 then (s.dev.ovf.toNat + 1) % 65536 else s.dev.ovf.toNat) ∧
    t.dev.seq = s.dev.seq ∧
    t = { s with dev := t.dev, responses := s.responses ++ [⟨.dev, {}⟩] } ∧
    ∀ pl : Payload, deliver (.command .dev (0x01#8 ++ pl)) s =
      if pl = 0#64 then .next t
      else .next { s with responses := s.responses ++ [⟨.dev, { status := .illegal, info := 2#8 }⟩] }

/-- R105: a TICK makes the value that NOW returns larger by one, except at the wrap, where it goes from the all-ones value
of `TW` bits to 0. -/
def Obligations.TickIsMonotoneUntilWrap : Prop :=
  ∀ s : State, ∃ t, exec .tick s = .next t ∧
    (((t.dev.now t.cfg).toNat = (s.dev.now s.cfg).toNat + 1 ∧ (t.dev.now t.cfg).toNat < 2 ^ s.cfg.tw) ∨
      ((s.dev.now s.cfg).toNat = 2 ^ s.cfg.tw - 1 ∧ (t.dev.now t.cfg).toNat = 0))

/-- R101: NOW returns `LO` (narrow) or `(OVF << 16) | LO` (wide), zero-extended to 64 bits, and writes nothing. At the DEV
port the command is opcode 0x02 with payload 0, and any other payload is ILLEGAL(2). -/
def Obligations.NowReturnsTick : Prop :=
  ∀ s : State,
    let done := { s with
      responses := s.responses ++ [⟨.dev,
        { value := BitVec.ofNat 64
            (if s.cfg.wide then s.dev.ovf.toNat * 65536 + s.dev.lo.toNat else s.dev.lo.toNat) }⟩] }
    exec .now s = .next done ∧
    ∀ pl : Payload, deliver (.command .dev (0x02#8 ++ pl)) s =
      if pl = 0#64 then .next done
      else .next { s with responses := s.responses ++ [⟨.dev, { status := .illegal, info := 2#8 }⟩] }

/-- R102: a wide NOW and a TICK, in either order, from any counter values. The NOW returns the value of the state before
the TICK or of the state after it, never a high half of one with a low half of the other. -/
def Obligations.WideNowIsNeverTorn : Prop :=
  ∀ s : State, s.cfg.wf = true → s.cfg.wide = true → ∃ t u,
    runInputs (program [.now, .tick]) s = .next t ∧ runInputs (program [.tick, .now]) s = .next u ∧
    newReplies s t =
      [⟨.dev, { value := BitVec.ofNat 64 (s.dev.ovf.toNat * 65536 + s.dev.lo.toNat) }⟩, ⟨.dev, {}⟩] ∧
    newReplies s u = [⟨.dev, {}⟩, ⟨.dev,
      { value := BitVec.ofNat 64 (if s.dev.lo.toNat = 65535 then (s.dev.ovf.toNat + 1) % 65536 * 65536
          else s.dev.ovf.toNat * 65536 + (s.dev.lo.toNat + 1)) }⟩]

/-- R103: `tick_sub(b, a)` is the remainder of `b - a` modulo `2^TW`; and with exactly `k` TICKs between a NOW returning `a`
and a NOW returning `b`, `tick_sub(b, a) = k mod 2^TW`, for every `k`. -/
def Obligations.TickSubIsElapsedTicks : Prop :=
  (∀ (cfg : Config) (b a : BitVec 32),
    ((tickSub cfg b a).toNat : Int) = ((b.toNat : Int) - (a.toNat : Int)) % (2 ^ cfg.tw : Nat)) ∧
  ∀ (s : State) (k : Nat), s.cfg.wf = true → ∃ t a b,
    runInputs (program ([.now] ++ List.replicate k .tick ++ [.now])) s = .next t ∧
    newReplies s t = [⟨.dev, { value := a }⟩] ++ List.replicate k ⟨.dev, {}⟩ ++ [⟨.dev, { value := b }⟩] ∧
    (tickSub s.cfg (b.setWidth 32) (a.setWidth 32)).toNat = k % 2 ^ s.cfg.tw

/-! ## The Frame Codec -/

/-- R120: the ENCODE command at the DEV port, for every payload and in both widths. A reserved bit set, or a narrow `t` that
needs more than 16 bits, is ILLEGAL(2); otherwise the response carries the packed frame of `c` at [47:40], `t` at [39:8],
`p` at [3:0]. Nothing is written. -/
def Obligations.EncodeCommandBuildsFrame : Prop :=
  ∀ (s : State) (pl : Payload),
    let reserved := if s.cfg.wide then 0xFFFF0000000000F0#64 else 0xFFFF00FFFF0000F0#64
    let c := pl.extractLsb' 40 8
    let p := pl.extractLsb' 0 4
    deliver (.command .dev (0x10#8 ++ pl)) s = .next { s with responses := s.responses ++ [⟨.dev,
      if pl &&& reserved ≠ 0#64 then { status := .illegal, info := 2#8 }
      else if s.cfg.wide then
        { value := s.cfg.startMarker ++ c ++ pl.extractLsb' 8 32 ++ 0#4 ++ p ++ s.cfg.endMarker }
      else
        { value := s.cfg.startMarker ++ c ++ pl.extractLsb' 8 16 ++ 0#4 ++ p ++ s.cfg.endMarker ++ 0#16 }⟩] }

/-- R121: the EMIT command at the DEV port, for every payload and in both widths. ILLEGAL(2) as for ENCODE, and then `SEQ`
does not advance; otherwise the response carries the packed frame with counter `SEQ`, and `SEQ` itself, and `SEQ` advances
by one modulo 256. -/
def Obligations.EmitCommandBuildsFrameAndAdvancesSeq : Prop :=
  ∀ (s : State) (pl : Payload),
    let reserved := if s.cfg.wide then 0xFFFFFF00000000F0#64 else 0xFFFFFFFFFF0000F0#64
    let p := pl.extractLsb' 0 4
    let illegal := pl &&& reserved ≠ 0#64
    deliver (.command .dev (0x11#8 ++ pl)) s = .next { s with
      dev := { s.dev with
        seq := if illegal then s.dev.seq else BitVec.ofNat 8 ((s.dev.seq.toNat + 1) % 256) }
      responses := s.responses ++ [⟨.dev,
        if illegal then { status := .illegal, info := 2#8 }
        else if s.cfg.wide then
          { value := s.cfg.startMarker ++ s.dev.seq ++ pl.extractLsb' 8 32 ++ 0#4 ++ p ++ s.cfg.endMarker,
            counter := s.dev.seq }
        else
          { value := s.cfg.startMarker ++ s.dev.seq ++ pl.extractLsb' 8 16 ++ 0#4 ++ p ++ s.cfg.endMarker ++ 0#16,
            counter := s.dev.seq }⟩] }

/-- R122: the DECODE command at the HOST port, for every payload and in both widths. Narrow bits [15:0] not zero are
ILLEGAL(2); a wrong marker is MALFORMED with its `info`; otherwise the response has the fields by position. Nothing is
written. -/
def Obligations.DecodeCommandReadsRecord : Prop :=
  ∀ (s : State) (pl : Payload),
    let first := pl.extractLsb' 56 8
    let last := if s.cfg.wide then pl.extractLsb' 0 8 else pl.extractLsb' 16 8
    let pb := if s.cfg.wide then pl.extractLsb' 8 8 else pl.extractLsb' 24 8
    deliver (.command .host (0x20#8 ++ pl)) s = .next { s with responses := s.responses ++ [⟨.host,
      if s.cfg.wide = false ∧ pl.extractLsb' 0 16 ≠ 0#16 then { status := .illegal, info := 2#8 }
      else if first = s.cfg.startMarker ∧ last = s.cfg.endMarker then
        { valid := true, counter := pl.extractLsb' 48 8,
          timestamp := if s.cfg.wide then pl.extractLsb' 16 32 else (pl.extractLsb' 32 16).setWidth 32,
          pinByte := pb, pins := if s.cfg.pinDecodeMask then BitVec.ofNat 8 (pb.toNat % 16) else pb }
      else
        { status := .malformed,
          info := BitVec.ofNat 8
            ((if first ≠ s.cfg.startMarker then 1 else 0) + (if last ≠ s.cfg.endMarker then 2 else 0)) }⟩] }

/-- R120, R71, R88: a wide ENCODE returns the 8-byte frame, timestamp most significant byte first, pin byte with bits [7:4]
zero, and writes nothing. -/
def Obligations.EncodeWideBuildsFrame : Prop :=
  ∀ (s : State) (c : Byte) (t : BitVec 32) (p : BitVec 4), s.cfg.wide = true →
    exec (.encodeWide c t p) s = .next { s with responses := s.responses ++
      [⟨.dev, { value := s.cfg.startMarker ++ c ++ t ++ 0#4 ++ p ++ s.cfg.endMarker }⟩] }

/-- R120, R70, R88: a narrow ENCODE returns the 6-byte frame, packed above 16 zero bits, and writes nothing. -/
def Obligations.EncodeNarrowBuildsFrame : Prop :=
  ∀ (s : State) (c : Byte) (t : BitVec 16) (p : BitVec 4), s.cfg.wide = false →
    exec (.encodeNarrow c t p) s = .next { s with responses := s.responses ++
      [⟨.dev, { value := s.cfg.startMarker ++ c ++ t ++ 0#4 ++ p ++ s.cfg.endMarker ++ 0#16 }⟩] }

/-- R121: a wide EMIT returns the frame that carries `SEQ`, reports `SEQ` in `counter`, and advances `SEQ` by one modulo
256. Nothing else changes. -/
def Obligations.EmitWideBuildsFrameAndAdvancesSeq : Prop :=
  ∀ (s : State) (t : BitVec 32) (p : BitVec 4), s.cfg.wide = true →
    exec (.emitWide t p) s = .next { s with
      dev := { s.dev with seq := BitVec.ofNat 8 ((s.dev.seq.toNat + 1) % 256) }
      responses := s.responses ++ [⟨.dev,
        { value := s.cfg.startMarker ++ s.dev.seq ++ t ++ 0#4 ++ p ++ s.cfg.endMarker, counter := s.dev.seq }⟩] }

/-- R121: a narrow EMIT returns the frame that carries `SEQ`, reports `SEQ` in `counter`, and advances `SEQ` by one modulo
256. Nothing else changes. -/
def Obligations.EmitNarrowBuildsFrameAndAdvancesSeq : Prop :=
  ∀ (s : State) (t : BitVec 16) (p : BitVec 4), s.cfg.wide = false →
    exec (.emitNarrow t p) s = .next { s with
      dev := { s.dev with seq := BitVec.ofNat 8 ((s.dev.seq.toNat + 1) % 256) }
      responses := s.responses ++ [⟨.dev,
        { value := s.cfg.startMarker ++ s.dev.seq ++ t ++ 0#4 ++ p ++ s.cfg.endMarker ++ 0#16,
          counter := s.dev.seq }⟩] }

/-- The wide rows of ENCODE and EMIT in a narrow block, with a timestamp operand that needs more than 16 bits: `exec` answers
ILLEGAL(2) and writes nothing; in particular EMIT does not advance `SEQ`. That these rows have a meaning in a narrow block
is the model's reading (notes/assumptions/6.md), since the decoder of a narrow block never gives them; the answer is the one
R84 gives their words, which `EncodeCommandBuildsFrame`, `EmitCommandBuildsFrameAndAdvancesSeq` and `ReservedBitIsIllegal`
state at the port. -/
def Obligations.NarrowTimestampOutOfRangeIsIllegal : Prop :=
  ∀ (s : State) (c : Byte) (t : BitVec 32) (p : BitVec 4), s.cfg.wide = false → 65536 ≤ t.toNat →
    exec (.encodeWide c t p) s =
      .next { s with responses := s.responses ++ [⟨.dev, { status := .illegal, info := 2#8 }⟩] } ∧
    exec (.emitWide t p) s =
      .next { s with responses := s.responses ++ [⟨.dev, { status := .illegal, info := 2#8 }⟩] }

/-- The words of one width variant's rows in a block of the other width (derived from R82, R84 and R85; the model's reading
is notes/assumptions/6.md): where the operand fits the block, the word runs as the block's own row; a wide record with a
byte set beyond offset 5 is ILLEGAL(2) in a narrow block. -/
def Obligations.OtherVariantWordsRunAsOwnRow : Prop :=
  ∀ (s : State) (c : Byte) (t : BitVec 16) (p : BitVec 4) (r0 r1 r2 r3 r4 r5 r6 r7 : Byte),
    (s.cfg.wide = true →
      exec (.encodeNarrow c t p) s = exec (.encodeWide c (t.setWidth 32) p) s ∧
      exec (.emitNarrow t p) s = exec (.emitWide (t.setWidth 32) p) s ∧
      exec (.decodeNarrow [r0, r1, r2, r3, r4, r5]) s = exec (.decodeWide [r0, r1, r2, r3, r4, r5, 0#8, 0#8]) s) ∧
    (s.cfg.wide = false →
      exec (.encodeWide c (t.setWidth 32) p) s = exec (.encodeNarrow c t p) s ∧
      exec (.emitWide (t.setWidth 32) p) s = exec (.emitNarrow t p) s ∧
      exec (.decodeWide [r0, r1, r2, r3, r4, r5, 0#8, 0#8]) s = exec (.decodeNarrow [r0, r1, r2, r3, r4, r5]) s ∧
      (r6 ≠ 0#8 ∨ r7 ≠ 0#8 → exec (.decodeWide [r0, r1, r2, r3, r4, r5, r6, r7]) s =
        .next { s with responses := s.responses ++ [⟨.host, { status := .illegal, info := 2#8 }⟩] }))

/-- R122, R124, R126: a wide DECODE of a record with both markers in place is OK, whatever its interior bytes: counter,
big-endian timestamp, whole pin byte, and the reported pins, masked or whole. Nothing is written. -/
def Obligations.DecodeWideReadsMarkedRecord : Prop :=
  ∀ (s : State) (c t3 t2 t1 t0 pb : Byte), s.cfg.wide = true →
    exec (.decodeWide [s.cfg.startMarker, c, t3, t2, t1, t0, pb, s.cfg.endMarker]) s =
      .next { s with responses := s.responses ++ [⟨.host,
        { valid := true, counter := c, timestamp := t3 ++ t2 ++ t1 ++ t0, pinByte := pb,
          pins := if s.cfg.pinDecodeMask then BitVec.ofNat 8 (pb.toNat % 16) else pb }⟩] }

/-- R122, R124, R126: a narrow DECODE of a record with both markers in place is OK, whatever its interior bytes. Nothing is
written. -/
def Obligations.DecodeNarrowReadsMarkedRecord : Prop :=
  ∀ (s : State) (c t1 t0 pb : Byte), s.cfg.wide = false →
    exec (.decodeNarrow [s.cfg.startMarker, c, t1, t0, pb, s.cfg.endMarker]) s =
      .next { s with responses := s.responses ++ [⟨.host,
        { valid := true, counter := c, timestamp := 0#16 ++ t1 ++ t0, pinByte := pb,
          pins := if s.cfg.pinDecodeMask then BitVec.ofNat 8 (pb.toNat % 16) else pb }⟩] }

/-- R192, R123: DECODE of a record of `RS` bytes completes with one response, which is OK exactly where the first byte is
the start marker and the last byte the end marker, whatever the bytes between; otherwise it is MALFORMED(i), `i` being 1 for
the first, 2 for the last, 3 for both, with no other field set. Nothing is written. -/
def Obligations.DecodeChecksOnlyTheMarkers : Prop :=
  ∀ (s : State) (first last : Byte) (mid : List Byte), mid.length + 2 = s.cfg.rs → ∃ r,
    exec (if s.cfg.wide then .decodeWide (first :: mid ++ [last]) else .decodeNarrow (first :: mid ++ [last])) s =
      .next { s with responses := s.responses ++ [⟨.host, r⟩] } ∧
    (r.status = .ok ↔ first = s.cfg.startMarker ∧ last = s.cfg.endMarker) ∧
    (first ≠ s.cfg.startMarker ∨ last ≠ s.cfg.endMarker → r =
      { status := .malformed,
        info := BitVec.ofNat 8
          ((if first ≠ s.cfg.startMarker then 1 else 0) + (if last ≠ s.cfg.endMarker then 2 else 0)) })

/-- R125, at the ports: the record that an ENCODE command returns, sent as the payload of a DECODE command, comes back as
the counter, the timestamp and the pins it was built from, for both values of `PIN_DECODE_MASK`. -/
def Obligations.DecodeUndoesEncode : Prop :=
  ∀ (s : State) (c : Byte) (t : BitVec 32) (p : BitVec 4), t.toNat < 2 ^ s.cfg.tw → ∃ u v w,
    deliver (.command .dev (0x10#8 ++ (0#16 ++ c ++ t ++ 0#4 ++ p))) s = .next u ∧
    newReplies s u = [⟨.dev, { value := v }⟩] ∧
    deliver (.command .host (0x20#8 ++ v)) u = .next w ∧
    newReplies u w = [⟨.host,
      { valid := true, counter := c, timestamp := t, pinByte := 0#4 ++ p, pins := 0#4 ++ p }⟩]

/-- R127: `k` EMITs from `SEQ = n` give the counters `n, n+1, ..., n+k-1` modulo 256, all OK, and leave
`SEQ = (n + k) mod 256`; and no instruction but EMIT changes `SEQ`. -/
def Obligations.EmitsNumberTheirFrames : Prop :=
  (∀ (i : Instr) (s t : State), exec i s = .next t → i.opcode ≠ .emit → t.dev.seq = s.dev.seq) ∧
  ∀ (s : State) (es : List (BitVec 32 × BitVec 4)), s.cfg.wf = true →
    (∀ e ∈ es, e.1.toNat < 2 ^ s.cfg.tw) → ∃ t,
    runInputs (program (es.map fun e => .emitWide e.1 e.2)) s = .next t ∧
    t.dev.seq.toNat = (s.dev.seq.toNat + es.length) % 256 ∧
    (newReplies s t).map (fun r => (r.port, r.response.status, r.response.counter.toNat)) =
      (List.range es.length).map fun k => (.dev, .ok, (s.dev.seq.toNat + k) % 256)

/-- The source's property 4 (spec/95_test_vectors.md L1.4) for every transition: `EDGE t0, p0, t1, p1` is exactly two
frames, `(SEQ, t0, p0)` and `(SEQ + 1, t1, p1)`. -/
def Obligations.EdgeEmitsTwoFrames : Prop :=
  ∀ (s : State) (t0 t1 p0 p1 : Nat), s.cfg.wf = true → t0 < 2 ^ s.cfg.tw → t1 < 2 ^ s.cfg.tw → p0 ≤ 15 → p1 ≤ 15 →
    ∃ is t,
      assemble s.cfg (.edge t0 p0 t1 p1) = some is ∧ runInputs (program is) s = .next t ∧
      newReplies s t =
        [⟨.dev, { value := pack (enc s.cfg s.dev.seq (BitVec.ofNat 32 t0) (BitVec.ofNat 4 p0)),
                  counter := s.dev.seq }⟩,
         ⟨.dev, { value := pack (enc s.cfg (s.dev.seq + 1#8) (BitVec.ofNat 32 t1) (BitVec.ofNat 4 p1)),
                  counter := s.dev.seq + 1#8 }⟩] ∧
      t.dev = { s.dev with seq := s.dev.seq + 2#8 } ∧ t.host = s.host ∧ t.output = s.output

/-- R63: NOW, ENCODE and DECODE, in every form, write no state: only the response is new; and a second NOW returns what the
first did. -/
def Obligations.PureCommandsWriteNoState : Prop :=
  ∀ (i : Instr) (s : State), i.opcode = .now ∨ i.opcode = .encode ∨ i.opcode = .decode →
    ∃ r, exec i s = .next { s with responses := s.responses ++ [r] } ∧
      (i = .now → exec i { s with responses := s.responses ++ [r] } =
        .next { s with responses := s.responses ++ [r, r] })

/-! ## The Synchronizer -/

/-- R153, R158: a byte that leaves an incomplete candidate (a start marker into the empty window, or any byte that does not
fill the candidate) is kept; nothing is discarded or accepted. -/
def Obligations.SyncInKeepsIncompleteCandidate : Prop :=
  ∀ (s : State) (b : Byte),
    (s.host.win = [] ∧ b = s.cfg.startMarker) ∨
      (s.host.win.head? = some s.cfg.startMarker ∧ s.host.win.length + 1 < s.cfg.rs) →
    exec (.syncIn b) s = .next { s with
      host := { s.host with win := s.host.win ++ [b] }, responses := s.responses ++ [⟨.host, {}⟩] }

/-- R152, R158: a byte other than the start marker into the empty window is discarded, and only it. -/
def Obligations.SyncInDiscardsStrayByte : Prop :=
  ∀ (s : State) (b : Byte), s.host.win = [] → b ≠ s.cfg.startMarker →
    exec (.syncIn b) s = .next { s with responses := s.responses ++ [⟨.host, { ndisc := 1#8 }⟩] }

/-- R155, R158, R159, narrow: an end marker that completes a candidate is accepted. The record goes to the output port and
into the response with the continuity bit, `LAST` and `LAST_VALID` are overwritten, the window is empty, and no byte is
discarded. -/
def Obligations.SyncInAcceptsNarrowFrame : Prop :=
  ∀ (s : State) (c t1 t0 pb : Byte), s.cfg.wide = false → s.host.win = [s.cfg.startMarker, c, t1, t0, pb] →
    let pins := if s.cfg.pinDecodeMask then BitVec.ofNat 8 (pb.toNat % 16) else pb
    let gap := decide (s.host.lastValid = true ∧ c.toNat ≠ (s.host.last.toNat + 1) % 256)
    exec (.syncIn s.cfg.endMarker) s = .next { s with
      host := { win := [], last := c, lastValid := true }
      output := s.output ++ [⟨c, 0#16 ++ t1 ++ t0, pb, pins, gap⟩]
      responses := s.responses ++ [⟨.host,
        { valid := true, counter := c, timestamp := 0#16 ++ t1 ++ t0, pinByte := pb, pins, gap }⟩] }

/-- R155, R158, R159, wide: an end marker that completes a candidate is accepted. -/
def Obligations.SyncInAcceptsWideFrame : Prop :=
  ∀ (s : State) (c t3 t2 t1 t0 pb : Byte), s.cfg.wide = true →
    s.host.win = [s.cfg.startMarker, c, t3, t2, t1, t0, pb] →
    let pins := if s.cfg.pinDecodeMask then BitVec.ofNat 8 (pb.toNat % 16) else pb
    let gap := decide (s.host.lastValid = true ∧ c.toNat ≠ (s.host.last.toNat + 1) % 256)
    exec (.syncIn s.cfg.endMarker) s = .next { s with
      host := { win := [], last := c, lastValid := true }
      output := s.output ++ [⟨c, t3 ++ t2 ++ t1 ++ t0, pb, pins, gap⟩]
      responses := s.responses ++ [⟨.host,
        { valid := true, counter := c, timestamp := t3 ++ t2 ++ t1 ++ t0, pinByte := pb, pins, gap }⟩] }

/-- R154, R152, R158: a byte other than the end marker that fills the candidate. The start marker is discarded, then every
byte up to the next start marker; what is left is the window. Nothing is accepted and nothing else changes. -/
def Obligations.SyncInRescansAfterBadEnd : Prop :=
  ∀ (s : State) (b : Byte),
    s.host.win.head? = some s.cfg.startMarker → s.host.win.length + 1 = s.cfg.rs → b ≠ s.cfg.endMarker →
    let left := (s.host.win.tail ++ [b]).dropWhile (· != s.cfg.startMarker)
    exec (.syncIn b) s = .next { s with
      host := { s.host with win := left }
      responses := s.responses ++ [⟨.host, { ndisc := BitVec.ofNat 8 (s.cfg.rs - left.length) }⟩] }

/-- R157: SYNC_IN from a quiescent window, for every byte. The window is quiescent again; either no record is accepted, or
exactly one is, the window is then empty and no byte was discarded; at most `RS` bytes are discarded; no byte is lost from
the count; and an accepted record is on the output port with the fields of the response. -/
def Obligations.SyncInFromQuiescentWindow : Prop :=
  ∀ (s : State) (b : Byte), s.Quiescent → ∃ t r,
    s.host.wlen ≤ s.cfg.rs - 1 ∧
    exec (.syncIn b) s = .next t ∧ t.Quiescent ∧ newReplies s t = [⟨.host, r⟩] ∧ r.status = .ok ∧
    r.ndisc.toNat ≤ s.cfg.rs ∧ t.dev = s.dev ∧
    ((r.valid = false ∧ t.output = s.output ∧ t.host.last = s.host.last ∧ t.host.lastValid = s.host.lastValid ∧
        t.host.wlen + r.ndisc.toNat = s.host.wlen + 1) ∨
      (r.valid = true ∧ r.ndisc = 0#8 ∧ t.host.win = [] ∧ s.host.wlen + 1 = s.cfg.rs ∧
        t.output = s.output ++ [⟨r.counter, r.timestamp, r.pinByte, r.pins, r.gap⟩]))

/-- R156, R157: whatever the window holds, a reachable one or not, the step loop ends in WAIT: SYNC_IN completes and leaves
a quiescent window. -/
def Obligations.SyncInAlwaysEndsQuiescent : Prop :=
  ∀ (s : State) (b : Byte), ∃ t, exec (.syncIn b) s = .next t ∧ t.Quiescent

/-- R160: SYNC_CLEAR empties the window, reports how many bytes it held, and leaves `LAST` and `LAST_VALID`. At the HOST port
the command is opcode 0x22 with payload 0, and any other payload is ILLEGAL(2). -/
def Obligations.SyncClearEmptiesWindow : Prop :=
  ∀ s : State,
    let done := { s with
      host := { win := [], last := s.host.last, lastValid := s.host.lastValid }
      responses := s.responses ++ [⟨.host, { ndisc := BitVec.ofNat 8 s.host.win.length }⟩] }
    exec .syncClear s = .next done ∧
    ∀ pl : Payload, deliver (.command .host (0x22#8 ++ pl)) s =
      if pl = 0#64 then .next done
      else .next { s with responses := s.responses ++ [⟨.host, { status := .illegal, info := 2#8 }⟩] }

/-- R222: after a loss of `k` consecutive frames the next frame has `gap = 0` exactly where `k` is a multiple of 256. -/
def Obligations.GapMissesMultiplesOf256 : Prop :=
  ∀ (s : State) (k : Nat), s.host.lastValid = true → s.host.win.head? = some s.cfg.startMarker →
    s.host.win.length + 1 = s.cfg.rs → s.host.win[1]? = some (s.host.last + 1#8 + BitVec.ofNat 8 k) →
    ∃ t r, exec (.syncIn s.cfg.endMarker) s = .next t ∧ newReplies s t = [⟨.host, r⟩] ∧ r.valid = true ∧
      (r.gap = false ↔ k % 256 = 0)

/-- R163: chunking does not matter. Feeding a stream byte by byte leaves the window, the continuity registers, the output
port and the total of `ndisc` that the source's chunk-wise procedure gives, however the stream is cut into chunks. -/
def Obligations.ChunkingDoesNotMatter : Prop :=
  ∀ (s : State) (chunks : List (List Byte)), s.cfg.wf = true → s.Quiescent → ∃ t,
    runInputs (feed chunks.flatten) s = .next t ∧
    t.host = (readChunks chunks s 0).1.host ∧ t.output = (readChunks chunks s 0).1.output ∧
    totalDiscards (newReplies s t) = (readChunks chunks s 0).2

/-- R164: conservation. Over any list of commands, whatever words and ports, the bytes given to SYNC_IN are those discarded
(the total of `ndisc`), those of the accepted records (`RS` each) and those in the window. -/
def Obligations.StreamBytesAreConserved : Prop :=
  ∀ (s : State) (ins : List Input), s.cfg.wf = true → s.Quiescent →
    (∀ a ∈ ins, ∃ port w, a = .command port w) → ∃ t,
    runInputs ins s = .next t ∧
    s.host.wlen + ins.countP (·.givesByte s.cfg) =
      t.host.wlen + totalDiscards (newReplies s t) + s.cfg.rs * (t.output.length - s.output.length)

/-- R166: a frame that arrives whole, both markers in place, is accepted when its last byte arrives unless a record that
ends inside it has been accepted meanwhile, whatever candidate the window held before it. -/
def Obligations.IntactFrameIsAccepted : Prop :=
  ∀ (s t : State) (frame : List Byte), s.cfg.wf = true → s.Quiescent →
    frame.length = s.cfg.rs → frame.head? = some s.cfg.startMarker → frame.getLast? = some s.cfg.endMarker →
    runInputs (feed frame.dropLast) s = .next t → t.output = s.output → ∃ u rec,
    runInputs (feed frame) s = .next u ∧ u.host.win = [] ∧ u.output = s.output ++ [rec] ∧
    (⟨rec.counter, rec.timestamp, rec.pinByte, rec.pins⟩ : Fields) = parse s.cfg frame

/-- The source's property 5 with the condition of spec/90_conflicts.md C2: one garbage byte and then one encoded frame, from
an empty window. Exactly one byte is discarded and the frame's own record is the only one emitted, unless the garbage byte
is the start marker and the frame's pin byte is the end marker. -/
def Obligations.GarbageByteThenFrame : Prop :=
  ∀ (s : State) (g c : Byte) (t : BitVec 32) (p : BitVec 4), s.cfg.wf = true → s.host.win = [] →
    t.toNat < 2 ^ s.cfg.tw → (g ≠ s.cfg.startMarker ∨ (0#4 ++ p : Byte) ≠ s.cfg.endMarker) → ∃ u gap,
    runInputs (feed (g :: enc s.cfg c t p)) s = .next u ∧ totalDiscards (newReplies s u) = 1 ∧ u.host.win = [] ∧
    u.output = s.output ++ [⟨c, t, 0#4 ++ p, 0#4 ++ p, gap⟩]

/-- R225: a stray start marker before a frame whose pin byte equals the end marker swallows the frame: the one record
emitted is the false one, and the frame's last byte is discarded. -/
def Obligations.StrayMarkerSwallowsFrame : Prop :=
  ∀ (s : State) (frame : List Byte), s.cfg.wf = true → s.host.win = [] → frame.length = s.cfg.rs →
    frame.head? = some s.cfg.startMarker → frame.getLast? = some s.cfg.endMarker →
    frame[s.cfg.rs - 2]? = some s.cfg.endMarker → ∃ u rec,
    runInputs (feed (s.cfg.startMarker :: frame)) s = .next u ∧ totalDiscards (newReplies s u) = 1 ∧
    u.host.win = [] ∧ u.output = s.output ++ [rec] ∧
    (⟨rec.counter, rec.timestamp, rec.pinByte, rec.pins⟩ : Fields) =
      parse s.cfg (s.cfg.startMarker :: frame.dropLast)

/-- End to end: the bytes of the record that EMIT returns, fed to the host unit with an empty window, come out of the output
port as the sequence number, the timestamp and the pins of the emission, and nothing is discarded. -/
def Obligations.EmittedFrameReachesConsumer : Prop :=
  ∀ (s : State) (t : BitVec 32) (p : BitVec 4), s.cfg.wf = true → t.toNat < 2 ^ s.cfg.tw → s.host.win = [] →
    ∃ u v w gap,
      runInputs [.command .dev (0x11#8 ++ (0#24 ++ t ++ 0#4 ++ p))] s = .next u ∧
      newReplies s u = [⟨.dev, { value := v, counter := s.dev.seq }⟩] ∧
      runInputs (feed (unpack s.cfg.rs v)) u = .next w ∧
      w.output = s.output ++ [⟨s.dev.seq, t, 0#4 ++ p, 0#4 ++ p, gap⟩] ∧
      totalDiscards (newReplies u w) = 0 ∧ w.host = ⟨[], s.dev.seq, true⟩

/-! ## Text output -/

/-- The line of a record is its counter, timestamp and pins as ASCII decimal integers, one space between them and a line
feed at the end (derived from R162). The ASCII code values are presumed (notes/assumptions/14.md): R162 marks them as general
knowledge, and the separator, the terminator and the digit form as the spec's own reading. -/
def Obligations.TextLineIsDecimal : Prop :=
  ∀ r : Record,
    let ascii := fun n : Nat => (Nat.toDigits 10 n).map fun ch => BitVec.ofNat 8 ch.toNat
    r.line = ascii r.counter.toNat ++ [0x20#8] ++ ascii r.timestamp.toNat ++ [0x20#8] ++ ascii r.pins.toNat ++ [0x0A#8]

/-! ## Errors -/

/-- R81, R193, R196: a word whose opcode is not assigned to the port it arrives at, whatever its payload, is ILLEGAL(1); the
word is taken and nothing else changes. -/
def Obligations.UnassignedOpcodeIsIllegal : Prop :=
  ∀ (s : State) (port : Port) (w : CmdWord) (rest : List Input), s.cfg.wf = true →
    s.input = .command port w :: rest →
    w.extractLsb' 64 8 ∉
      (match port with
        | .dev => [0x01#8, 0x02#8, 0x10#8, 0x11#8]
        | .host => [0x20#8, 0x21#8, 0x22#8]) →
    step s = .next { s with
      input := rest, responses := s.responses ++ [⟨port, { status := .illegal, info := 1#8 }⟩] }

/-- R84, R193: an assigned opcode at its own port with a reserved payload bit set, the narrow range checks among them, is
ILLEGAL(2); the word is taken and nothing else changes. -/
def Obligations.ReservedBitIsIllegal : Prop :=
  ∀ (s : State) (port : Port) (w : CmdWord) (rest : List Input) (op : Byte) (mask : BitVec 64), s.cfg.wf = true →
    s.input = .command port w :: rest →
    (port, op, mask) ∈
      [(Port.dev, 0x01#8, 0xFFFFFFFFFFFFFFFF#64), (.dev, 0x02#8, 0xFFFFFFFFFFFFFFFF#64),
       (.dev, 0x10#8, if s.cfg.wide then 0xFFFF0000000000F0#64 else 0xFFFF00FFFF0000F0#64),
       (.dev, 0x11#8, if s.cfg.wide then 0xFFFFFF00000000F0#64 else 0xFFFFFFFFFF0000F0#64),
       (.host, 0x20#8, if s.cfg.wide then 0x0000000000000000#64 else 0x000000000000FFFF#64),
       (.host, 0x21#8, 0xFFFFFFFFFFFFFF00#64), (.host, 0x22#8, 0xFFFFFFFFFFFFFFFF#64)] →
    w.extractLsb' 64 8 = op → w.extractLsb' 0 64 &&& mask ≠ 0#64 →
    step s = .next { s with
      input := rest, responses := s.responses ++ [⟨port, { status := .illegal, info := 2#8 }⟩] }

/-- R191: a step whose response is not OK writes no state: the registers of both units, the output port and the build
constants are as before it. -/
def Obligations.ErrorsWriteNoState : Prop :=
  ∀ (s t : State) (r : Reply), step s = .next t → t.responses = s.responses ++ [r] → r.response.status ≠ .ok →
    t.dev = s.dev ∧ t.host = s.host ∧ t.output = s.output ∧ t.cfg = s.cfg

/-- A block whose markers are equal is refused at every step; every other block completes every step, whatever arrives
(derived). R7 says that a model must refuse such a configuration; that the refusal is `step`'s is the model's reading
(notes/assumptions/10.md). The second clause rests on R190 (every command ends with one status) and R198 (a command that
does not end OK stops nothing), and, where nothing arrives, on the model's idle step (notes/assumptions/3.md). -/
def Obligations.OnlyEqualMarkersAreRefused : Prop :=
  ∀ s : State,
    (s.cfg.startMarker = s.cfg.endMarker → step s = .refused .equalMarkers) ∧
    (s.cfg.startMarker ≠ s.cfg.endMarker → ∃ t, step s = .next t)

/-! ## Encoding -/

/-- R80, R82, R88: for every well-formed instruction, the word that the encoder writes decodes, at the port of its unit, to
that instruction with every operand. -/
def Obligations.DecodeOfEncode : Prop :=
  ∀ (cfg : Config) (i : Instr), i.wf cfg = true → decode cfg i.unit (encode i) = .instr i

/-- R81, R84, R85: each word has one meaning. A word that a port reads as an instruction is that instruction's own word, the
port is that of its unit, and the instruction is well-formed. -/
def Obligations.EncodeOfDecode : Prop :=
  ∀ (cfg : Config) (port : Port) (w : CmdWord) (i : Instr), decode cfg port w = .instr i →
    encode i = w ∧ i.unit = port ∧ i.wf cfg = true

/-- spec/opcode_table.json: for each of its ten rows, a port reads a word as the row's instruction exactly where the port is
the row's unit, the block has the row's width, and the word's bits under the row's mask are the row's match. -/
def Obligations.DecodeMatchesOpcodeTable : Prop :=
  ∀ (cfg : Config) (port : Port) (w : CmdWord),
    (decode cfg port w = .instr .tick ↔
      port = .dev ∧ w &&& 0xFFFFFFFFFFFFFFFFFF#72 = 0x010000000000000000#72) ∧
    (decode cfg port w = .instr .now ↔
      port = .dev ∧ w &&& 0xFFFFFFFFFFFFFFFFFF#72 = 0x020000000000000000#72) ∧
    ((∃ c t p, decode cfg port w = .instr (.encodeWide c t p)) ↔
      port = .dev ∧ cfg.wide = true ∧ w &&& 0xFFFFFF0000000000F0#72 = 0x100000000000000000#72) ∧
    ((∃ c t p, decode cfg port w = .instr (.encodeNarrow c t p)) ↔
      port = .dev ∧ cfg.wide = false ∧ w &&& 0xFFFFFF00FFFF0000F0#72 = 0x100000000000000000#72) ∧
    ((∃ t p, decode cfg port w = .instr (.emitWide t p)) ↔
      port = .dev ∧ cfg.wide = true ∧ w &&& 0xFFFFFFFF00000000F0#72 = 0x110000000000000000#72) ∧
    ((∃ t p, decode cfg port w = .instr (.emitNarrow t p)) ↔
      port = .dev ∧ cfg.wide = false ∧ w &&& 0xFFFFFFFFFFFF0000F0#72 = 0x110000000000000000#72) ∧
    ((∃ r, decode cfg port w = .instr (.decodeWide r)) ↔
      port = .host ∧ cfg.wide = true ∧ w &&& 0xFF0000000000000000#72 = 0x200000000000000000#72) ∧
    ((∃ r, decode cfg port w = .instr (.decodeNarrow r)) ↔
      port = .host ∧ cfg.wide = false ∧ w &&& 0xFF000000000000FFFF#72 = 0x200000000000000000#72) ∧
    ((∃ b, decode cfg port w = .instr (.syncIn b)) ↔
      port = .host ∧ w &&& 0xFFFFFFFFFFFFFFFF00#72 = 0x210000000000000000#72) ∧
    (decode cfg port w = .instr .syncClear ↔
      port = .host ∧ w &&& 0xFFFFFFFFFFFFFFFFFF#72 = 0x220000000000000000#72)

/-- Words that spec/95_test_vectors.md writes out decode to the commands they are written for. -/
def Obligations.SpelledWordsDecode : Prop :=
  let wide : Config := ⟨true, 0xA5#8, 0x5A#8, true⟩
  let narrow : Config := ⟨false, 0xA5#8, 0x5A#8, true⟩
  decode wide .dev 0x010000000000000000#72 = .instr .tick ∧
  decode wide .dev 0x020000000000000000#72 = .instr .now ∧
  decode narrow .dev 0x100000FF000012340F#72 = .instr (.encodeNarrow 0xFF#8 0x1234#16 0xF#4) ∧
  decode narrow .dev 0x110000000000006401#72 = .instr (.emitNarrow 100#16 1#4) ∧
  decode wide .dev 0x110000000001FFFF03#72 = .instr (.emitWide 0x0001FFFF#32 3#4) ∧
  decode wide .host 0x20A50701020304055A#72 =
    .instr (.decodeWide [0xA5#8, 0x07#8, 0x01#8, 0x02#8, 0x03#8, 0x04#8, 0x05#8, 0x5A#8]) ∧
  decode narrow .host 0x2100000000000000A5#72 = .instr (.syncIn 0xA5#8) ∧
  decode narrow .host 0x220000000000000000#72 = .instr .syncClear

/-! ## The assembler -/

/-- R86: the assembler's words. ENCODE, EMIT and SYNC_IN are refused exactly where an operand does not fit its field, DECODE
also where the byte count is not `RS`; otherwise each gives one instruction whose word has the opcode and the operands at
the places R86 names. -/
def Obligations.AssembledWordsHoldTheirOperands : Prop :=
  ∀ (cfg : Config) (c t p b : Nat),
    (assemble cfg (.encode c t p) = none ↔ 255 < c ∨ 2 ^ cfg.tw ≤ t ∨ 15 < p) ∧
    (∀ is, assemble cfg (.encode c t p) = some is → ∃ i, is = [i] ∧
      (encode i).toNat = 0x10 * 2 ^ 64 + c * 2 ^ 40 + t * 2 ^ 8 + p) ∧
    (assemble cfg (.emit t p) = none ↔ 2 ^ cfg.tw ≤ t ∨ 15 < p) ∧
    (∀ is, assemble cfg (.emit t p) = some is → ∃ i, is = [i] ∧ (encode i).toNat = 0x11 * 2 ^ 64 + t * 2 ^ 8 + p) ∧
    (assemble cfg (.syncIn b) = none ↔ 255 < b) ∧
    (∀ is, assemble cfg (.syncIn b) = some is → ∃ i, is = [i] ∧ (encode i).toNat = 0x21 * 2 ^ 64 + b) ∧
    (∀ r, assemble cfg (.decode r) = none ↔ r.length ≠ cfg.rs ∨ ∃ x ∈ r, 255 < x) ∧
    (∀ r is, assemble cfg (.decode r) = some is → ∃ i, is = [i] ∧
      (encode i).toNat =
        0x20 * 2 ^ 64 + r.foldl (fun acc x => acc * 256 + x) 0 * (if cfg.wide then 1 else 65536))

/-- R86, R87: whatever line the assembler takes, every instruction it gives is well-formed for the block it assembles for. -/
def Obligations.AssembledInstructionsAreWellFormed : Prop :=
  ∀ (cfg : Config) (line : AsmLine) (is : List Instr), assemble cfg line = some is → ∀ i ∈ is, i.wf cfg = true

/-- R87: `TICKS n` is `n` TICKs; a feed is one SYNC_IN for each byte in order, refused exactly where a number is no byte;
`EDGE t0, p0, t1, p1` is `EMIT t0, p0` and then `EMIT t1, p1`. -/
def Obligations.PseudoInstructionsExpand : Prop :=
  ∀ (cfg : Config) (n t0 p0 t1 p1 : Nat) (bs : List Nat),
    (∀ is, assemble cfg (.edge t0 p0 t1 p1) = some is ↔ ∃ i j,
      assemble cfg (.emit t0 p0) = some [i] ∧ assemble cfg (.emit t1 p1) = some [j] ∧ is = [i, j]) ∧
    (∃ is, assemble cfg (.ticks n) = some is ∧ is.length = n ∧ ∀ i ∈ is, i = .tick) ∧
    (assemble cfg (.syncFeed bs) = none ↔ ∃ b ∈ bs, 255 < b) ∧
    (∀ is, assemble cfg (.syncFeed bs) = some is → is.map (fun i => (encode i).toNat) = bs.map (0x21 * 2 ^ 64 + ·))

/-! ## The whole machine -/

/-- A step runs the decoded instruction (R13, R80): where the word that arrives next decodes, at its port, to `i`, the step
is `exec i` with that word taken; with nothing arriving, nothing changes (the model's choice, notes/assumptions/3.md). -/
def Obligations.StepRunsDecodedInstruction : Prop :=
  ∀ s : State, s.cfg.wf = true →
    (s.input = [] → step s = .next s) ∧
    (∀ port w rest i, s.input = .command port w :: rest → decode s.cfg port w = .instr i →
      step s = exec i { s with input := rest })

/-- R83, R190: every instruction in every form completes, in every state, with exactly one response, from its own unit. -/
def Obligations.EveryInstructionCompletesWithOneResponse : Prop :=
  ∀ (i : Instr) (s : State), ∃ t r, exec i s = .next t ∧ t.responses = s.responses ++ [⟨i.unit, r⟩]

/-- R20, R21, R23, R26, R28, R104, R150: who writes what. Only TICK changes `LO` or `OVF`, only EMIT changes `SEQ`, only
SYNC_IN and SYNC_CLEAR change the window, only SYNC_IN changes `LAST`, `LAST_VALID` or the output port; no instruction
changes a build constant. -/
def Obligations.OnlyItsWriterChangesARegister : Prop :=
  ∀ (i : Instr) (s t : State), exec i s = .next t →
    (t.dev.lo ≠ s.dev.lo ∨ t.dev.ovf ≠ s.dev.ovf → i = .tick) ∧
    (t.dev.seq ≠ s.dev.seq → i.opcode = .emit) ∧
    (t.host.win ≠ s.host.win → (∃ b, i = .syncIn b) ∨ i = .syncClear) ∧
    (t.host.last ≠ s.host.last ∨ t.host.lastValid ≠ s.host.lastValid ∨ t.output ≠ s.output → ∃ b, i = .syncIn b) ∧
    t.cfg = s.cfg ∧ t.input = s.input

/-- R161, R29: what has come out of the block stays out, in order: a step only adds to the output port and to the
responses, at most one of each from a quiescent window, and it never writes a build constant. -/
def Obligations.StepOnlyExtendsOutput : Prop :=
  ∀ s t : State, step s = .next t → s.output <+: t.output ∧ s.responses <+: t.responses ∧ t.cfg = s.cfg ∧
    (s.Quiescent → t.output.length ≤ s.output.length + 1 ∧ t.responses.length ≤ s.responses.length + 1)

/-- R210, R32: power-on reset, with any draws: the window empty, `LAST_VALID = 0`, `LO`, `OVF` (wide), `SEQ` and `LAST` at
their draws, the build constants unchanged, and no response. -/
def Obligations.PowerOnResetsEveryRegister : Prop :=
  ∀ (s : State) (d : Draws) (rest : List Input), s.cfg.wf = true → s.input = .powerOn d :: rest → ∃ t,
    step s = .next t ∧ t.dev.lo = d.loInit ∧ (s.cfg.wide = true → t.dev.ovf = d.ovfInit) ∧ t.dev.seq = d.seqInit ∧
    t.host = { win := [], last := d.lastInit, lastValid := false } ∧ t.cfg = s.cfg ∧
    t.responses = s.responses ∧ t.input = rest

/-- R157, R22, R7: a block right after power-on meets the invariant, for every admitted configuration and all draws. -/
def Obligations.PowerOnMeetsTheInvariant : Prop :=
  ∀ (cfg : Config) (d : Draws), cfg.wf = true → (State.resetWith cfg d).Inv

/-- R157, R22, R83, R126: every step keeps the invariant: the window stays quiescent, a narrow block's `OVF` field (the
model's, notes/assumptions/4.md) stays 0, every record on the output port stays one this block can decode. -/
def Obligations.StepKeepsTheInvariant : Prop :=
  ∀ s t : State, s.Inv → step s = .next t → t.Inv

/-- R33: the units share no state. What a unit's registers, output and responses are after any list of inputs depends only
on the inputs that reach that unit: leaving out the other unit's commands changes none of them. -/
def Obligations.UnitsAreIsolated : Prop :=
  ∀ (u : Port) (s : State) (ins : List Input), s.cfg.wf = true → ∃ t t',
    runInputs ins s = .next t ∧ runInputs (ins.filter (·.reaches u)) s = .next t' ∧
    t.repliesOf u = t'.repliesOf u ∧ (u = .dev → t.dev = t'.dev) ∧
    (u = .host → t.host = t'.host ∧ t.output = t'.output)
end

