-- ==== Sys2Proof/Laws/State.lean ====
section
/-! SUPPORT. One lemma for each field under each update of State, so that no proof unfolds a record update. -/

namespace Sys2Proof.Machine

variable (s : State)

/-! ### respond -/

@[simp] theorem State.respond_cfg (port : Port) (r : Response) : (s.respond port r).cfg = s.cfg := rfl
@[simp] theorem State.respond_dev (port : Port) (r : Response) : (s.respond port r).dev = s.dev := rfl
@[simp] theorem State.respond_host (port : Port) (r : Response) : (s.respond port r).host = s.host := rfl
@[simp] theorem State.respond_output (port : Port) (r : Response) : (s.respond port r).output = s.output := rfl
@[simp] theorem State.respond_responses (port : Port) (r : Response) : (s.respond port r).responses = s.responses ++ [⟨port, r⟩] := rfl
@[simp] theorem State.respond_input (port : Port) (r : Response) : (s.respond port r).input = s.input := rfl

/-! ### raise -/

@[simp] theorem State.raise_cfg (port : Port) (st : Status) (info : Byte) : (s.raise port st info).cfg = s.cfg := rfl
@[simp] theorem State.raise_dev (port : Port) (st : Status) (info : Byte) : (s.raise port st info).dev = s.dev := rfl
@[simp] theorem State.raise_host (port : Port) (st : Status) (info : Byte) : (s.raise port st info).host = s.host := rfl
@[simp] theorem State.raise_output (port : Port) (st : Status) (info : Byte) : (s.raise port st info).output = s.output := rfl
@[simp] theorem State.raise_responses (port : Port) (st : Status) (info : Byte) : (s.raise port st info).responses = s.responses ++ [⟨port, { status := st, info }⟩] := rfl
@[simp] theorem State.raise_input (port : Port) (st : Status) (info : Byte) : (s.raise port st info).input = s.input := rfl

/-! ### raiseIllegal -/

@[simp] theorem State.raiseIllegal_cfg (port : Port) (why : IllegalCause) : (s.raiseIllegal port why).cfg = s.cfg := rfl
@[simp] theorem State.raiseIllegal_dev (port : Port) (why : IllegalCause) : (s.raiseIllegal port why).dev = s.dev := rfl
@[simp] theorem State.raiseIllegal_host (port : Port) (why : IllegalCause) : (s.raiseIllegal port why).host = s.host := rfl
@[simp] theorem State.raiseIllegal_output (port : Port) (why : IllegalCause) : (s.raiseIllegal port why).output = s.output := rfl
@[simp] theorem State.raiseIllegal_responses (port : Port) (why : IllegalCause) : (s.raiseIllegal port why).responses = s.responses ++ [⟨port, { status := .illegal, info := why.info }⟩] := rfl
@[simp] theorem State.raiseIllegal_input (port : Port) (why : IllegalCause) : (s.raiseIllegal port why).input = s.input := rfl

/-! ### raiseMalformed -/

@[simp] theorem State.raiseMalformed_cfg (info : Byte) : (s.raiseMalformed info).cfg = s.cfg := rfl
@[simp] theorem State.raiseMalformed_dev (info : Byte) : (s.raiseMalformed info).dev = s.dev := rfl
@[simp] theorem State.raiseMalformed_host (info : Byte) : (s.raiseMalformed info).host = s.host := rfl
@[simp] theorem State.raiseMalformed_output (info : Byte) : (s.raiseMalformed info).output = s.output := rfl
@[simp] theorem State.raiseMalformed_responses (info : Byte) : (s.raiseMalformed info).responses = s.responses ++ [⟨.host, { status := .malformed, info }⟩] := rfl
@[simp] theorem State.raiseMalformed_input (info : Byte) : (s.raiseMalformed info).input = s.input := rfl

/-! ### append -/

@[simp] theorem State.append_cfg (b : Byte) : (s.append b).cfg = s.cfg := rfl
@[simp] theorem State.append_dev (b : Byte) : (s.append b).dev = s.dev := rfl
@[simp] theorem State.append_host (b : Byte) : (s.append b).host = { s.host with win := s.host.win ++ [b] } := rfl
@[simp] theorem State.append_output (b : Byte) : (s.append b).output = s.output := rfl
@[simp] theorem State.append_responses (b : Byte) : (s.append b).responses = s.responses := rfl
@[simp] theorem State.append_input (b : Byte) : (s.append b).input = s.input := rfl

/-! ### dropFront -/

@[simp] theorem State.dropFront_cfg (n : Nat) : (s.dropFront n).cfg = s.cfg := rfl
@[simp] theorem State.dropFront_dev (n : Nat) : (s.dropFront n).dev = s.dev := rfl
@[simp] theorem State.dropFront_host (n : Nat) : (s.dropFront n).host = { s.host with win := s.host.win.drop n } := rfl
@[simp] theorem State.dropFront_output (n : Nat) : (s.dropFront n).output = s.output := rfl
@[simp] theorem State.dropFront_responses (n : Nat) : (s.dropFront n).responses = s.responses := rfl
@[simp] theorem State.dropFront_input (n : Nat) : (s.dropFront n).input = s.input := rfl

/-! ### emit -/

@[simp] theorem State.emit_cfg (rec : Record) : (s.emit rec).cfg = s.cfg := rfl
@[simp] theorem State.emit_dev (rec : Record) : (s.emit rec).dev = s.dev := rfl
@[simp] theorem State.emit_host (rec : Record) : (s.emit rec).host = s.host := rfl
@[simp] theorem State.emit_output (rec : Record) : (s.emit rec).output = s.output ++ [rec] := rfl
@[simp] theorem State.emit_responses (rec : Record) : (s.emit rec).responses = s.responses := rfl
@[simp] theorem State.emit_input (rec : Record) : (s.emit rec).input = s.input := rfl

/-! ### observe -/

@[simp] theorem State.observe_cfg (c : Byte) : (s.observe c).cfg = s.cfg := rfl
@[simp] theorem State.observe_dev (c : Byte) : (s.observe c).dev = s.dev := rfl
@[simp] theorem State.observe_host (c : Byte) : (s.observe c).host = { s.host with last := c, lastValid := true } := rfl
@[simp] theorem State.observe_output (c : Byte) : (s.observe c).output = s.output := rfl
@[simp] theorem State.observe_responses (c : Byte) : (s.observe c).responses = s.responses := rfl
@[simp] theorem State.observe_input (c : Byte) : (s.observe c).input = s.input := rfl

/-! ### powerOn -/

@[simp] theorem State.powerOn_cfg (d : Draws) : (s.powerOn d).cfg = s.cfg := rfl
@[simp] theorem State.powerOn_dev (d : Draws) : (s.powerOn d).dev = .powerOn s.cfg d := rfl
@[simp] theorem State.powerOn_host (d : Draws) : (s.powerOn d).host = .powerOn d := rfl
@[simp] theorem State.powerOn_output (d : Draws) : (s.powerOn d).output = s.output := rfl
@[simp] theorem State.powerOn_responses (d : Draws) : (s.powerOn d).responses = s.responses := rfl
@[simp] theorem State.powerOn_input (d : Draws) : (s.powerOn d).input = s.input := rfl

/-! ### withInput -/

@[simp] theorem State.withInput_cfg (rest : List Input) : (s.withInput rest).cfg = s.cfg := rfl
@[simp] theorem State.withInput_dev (rest : List Input) : (s.withInput rest).dev = s.dev := rfl
@[simp] theorem State.withInput_host (rest : List Input) : (s.withInput rest).host = s.host := rfl
@[simp] theorem State.withInput_output (rest : List Input) : (s.withInput rest).output = s.output := rfl
@[simp] theorem State.withInput_responses (rest : List Input) : (s.withInput rest).responses = s.responses := rfl
@[simp] theorem State.withInput_input (rest : List Input) : (s.withInput rest).input = rest := rfl

/-! ### accept -/

@[simp] theorem State.accept_cfg : s.accept.cfg = s.cfg := rfl
@[simp] theorem State.accept_dev : s.accept.dev = s.dev := rfl
@[simp] theorem State.accept_host :
    s.accept.host = { win := s.host.win.drop s.cfg.rs, last := s.candidate.counter, lastValid := true } := rfl
@[simp] theorem State.accept_output : s.accept.output = s.output ++ [s.candidate] := rfl
@[simp] theorem State.accept_responses : s.accept.responses = s.responses := rfl
@[simp] theorem State.accept_input : s.accept.input = s.input := rfl

/-! ### the clock -/

@[simp] theorem Dev.tick_lo (cfg : Config) (d : Dev) : (d.tick cfg).lo = d.lo + 1#16 := rfl
@[simp] theorem Dev.tick_seq (cfg : Config) (d : Dev) : (d.tick cfg).seq = d.seq := rfl

end Sys2Proof.Machine
end

