-- ==== Sys2Proof/Laws/Clock.lean ====
section
/-! SUPPORT. The counters and the tick as numbers, said once (R100, R101). -/

namespace Sys2Proof.Machine

/-- The current tick as a number. -/
theorem Dev.now_toNat (cfg : Config) (d : Dev) :
    (d.now cfg).toNat = if cfg.wide then d.ovf.toNat * 65536 + d.lo.toNat else d.lo.toNat := by
  have hlo := d.lo.isLt
  have hovf := d.ovf.isLt
  unfold Dev.now
  split
  · have hshift : (d.ovf.toNat % 2 ^ 32) <<< 16 % 2 ^ 32 = d.ovf.toNat <<< 16 := by
      rw [Nat.mod_eq_of_lt (by omega), Nat.shiftLeft_eq]; omega
    rw [BitVec.toNat_or, BitVec.toNat_shiftLeft, BitVec.toNat_setWidth, BitVec.toNat_setWidth, hshift,
      Nat.mod_eq_of_lt (show d.lo.toNat < 2 ^ 32 by omega), ← Nat.shiftLeft_add_eq_or_of_lt hlo, Nat.shiftLeft_eq]
  · rw [BitVec.toNat_setWidth]; omega

/-- The overflow counter after a tick, as a number. -/
theorem Dev.tick_ovf_toNat (cfg : Config) (d : Dev) :
    (d.tick cfg).ovf.toNat =
      if cfg.wide = true ∧ d.lo.toNat = 65535 then (d.ovf.toNat + 1) % 65536 else d.ovf.toNat := by
  have hb : (d.lo == 0xFFFF#16) = true ↔ d.lo.toNat = 65535 := by
    rw [beq_iff_eq, ← BitVec.toNat_inj]; simp
  unfold Dev.tick
  by_cases hw : cfg.wide = true <;> by_cases hl : d.lo.toNat = 65535
  · simp [hw, hl, hb.2 hl, BitVec.toNat_add]
  · simp [hw, hl, mt hb.1 hl]
  · simp [hw]
  · simp [hw]

end Sys2Proof.Machine
end

