-- ==== Sys2Proof/Laws/Operands.lean ====
section
/-! SUPPORT. What the sizes, byte sequences and operand computations give, said once (R6, R11, R84, R88, R103). -/

namespace Sys2Proof

/-! ## Sizes (R6) -/

theorem Config.rs_wide {cfg : Config} (h : cfg.wide = true) : cfg.rs = 8 := by
  simp [Config.rs, Config.tsb, Config.tw, h]

theorem Config.rs_narrow {cfg : Config} (h : cfg.wide = false) : cfg.rs = 6 := by
  simp [Config.rs, Config.tsb, Config.tw, h]

theorem Config.tsb_wide {cfg : Config} (h : cfg.wide = true) : cfg.tsb = 4 := by
  simp [Config.tsb, Config.tw, h]

theorem Config.tsb_narrow {cfg : Config} (h : cfg.wide = false) : cfg.tsb = 2 := by
  simp [Config.tsb, Config.tw, h]

theorem Config.tw_wide {cfg : Config} (h : cfg.wide = true) : cfg.tw = 32 := by simp [Config.tw, h]

theorem Config.tw_narrow {cfg : Config} (h : cfg.wide = false) : cfg.tw = 16 := by simp [Config.tw, h]

/-- A frame is 6 or 8 bytes long. -/
theorem Config.rs_cases (cfg : Config) : cfg.rs = 6 ∨ cfg.rs = 8 := by
  cases h : cfg.wide
  · exact .inl (Config.rs_narrow h)
  · exact .inr (Config.rs_wide h)

theorem Config.rs_pos (cfg : Config) : 0 < cfg.rs := by rcases cfg.rs_cases with h | h <;> omega

/-- The number that two bit vectors side by side stand for. -/
theorem toNat_append_mul {m n : Nat} (x : BitVec m) (y : BitVec n) : (x ++ y).toNat = x.toNat * 2 ^ n + y.toNat := by
  rw [BitVec.toNat_append, ← Nat.shiftLeft_add_eq_or_of_lt y.isLt, Nat.shiftLeft_eq]

namespace Machine

/-! ## Byte order (R11) -/

@[simp] theorem unbe_nil : unbe [] = 0 := rfl

@[simp] theorem length_be (n : Nat) (v : BitVec 32) : (be n v).length = n := by simp [be]

theorem be_four (v : BitVec 32) :
    be 4 v = [v.extractLsb' 24 8, v.extractLsb' 16 8, v.extractLsb' 8 8, v.extractLsb' 0 8] := rfl

theorem be_two (v : BitVec 32) : be 2 v = [v.extractLsb' 8 8, v.extractLsb' 0 8] := rfl

theorem unbe_loop (s : List Byte) (acc : Nat) :
    s.foldl (fun acc b => acc * 256 + b.toNat) acc = acc * 256 ^ s.length + unbe s := by
  induction s generalizing acc with
  | nil => simp [unbe]
  | cons b s ih =>
    have h : unbe (b :: s) = b.toNat * 256 ^ s.length + unbe s := by simp [unbe, ih b.toNat]
    simp only [List.foldl_cons, List.length_cons, h, ih]
    ring

/-- R11's sum, one digit at a time: the first byte is the most significant. -/
theorem unbe_cons (b : Byte) (s : List Byte) : unbe (b :: s) = b.toNat * 256 ^ s.length + unbe s := by
  simpa [unbe] using unbe_loop s b.toNat

theorem unbe_lt (s : List Byte) : unbe s < 256 ^ s.length := by
  induction s with
  | nil => simp [unbe]
  | cons b s ih =>
    have hb : b.toNat ≤ 255 := by omega
    have hmul : b.toNat * 256 ^ s.length ≤ 255 * 256 ^ s.length := Nat.mul_le_mul_right _ hb
    rw [unbe_cons, List.length_cons, pow_succ]
    omega

/-- Reading back what `be` wrote gives the low bytes of the value. -/
theorem unbe_be_four (v : BitVec 32) : unbe (be 4 v) = v.toNat := by
  simp only [be_four, unbe_cons, unbe_nil, List.length_cons, List.length_nil, BitVec.extractLsb'_toNat,
    Nat.shiftRight_eq_div_pow]
  omega

theorem unbe_be_two (v : BitVec 32) : unbe (be 2 v) = v.toNat % 65536 := by
  simp only [be_two, unbe_cons, unbe_nil, List.length_cons, List.length_nil, BitVec.extractLsb'_toNat,
    Nat.shiftRight_eq_div_pow]
  omega

/-! ## Ranges (R84) -/

/-- The range check passes exactly on a Tick of the block. -/
theorem timestampFits_iff (cfg : Config) (t : BitVec 32) : timestampFits cfg t = true ↔ t.toNat < 2 ^ cfg.tw := by
  have hz : (t.extractLsb' 16 16 == 0#16) = true ↔ t.toNat < 65536 := by
    rw [beq_iff_eq, ← BitVec.toNat_inj, BitVec.extractLsb'_toNat, Nat.shiftRight_eq_div_pow]
    simp only [BitVec.toNat_ofNat]
    omega
  cases h : cfg.wide
  · simp [timestampFits, Config.tw, h, hz]
  · simp [timestampFits, Config.tw, h, t.isLt]

/-- A narrow timestamp is in range in every block. -/
@[simp] theorem timestampFits_setWidth (cfg : Config) (t : BitVec 16) : timestampFits cfg (t.setWidth 32) = true := by
  rw [timestampFits_iff, BitVec.toNat_setWidth]
  have ht := t.isLt
  cases h : cfg.wide
  · rw [Config.tw_narrow h]; omega
  · rw [Config.tw_wide h]; omega

/-! ## Record packing (R88) -/

@[simp] theorem length_unpack (n : Nat) (pl : Payload) : (unpack n pl).length = n := by simp [unpack]

/-- The number a packed record stands for: its bytes as base-256 digits. -/
theorem toNat_pack (r : List Byte) :
    (pack r).toNat =
      (recordByte r 0).toNat * 2 ^ 56 + (recordByte r 1).toNat * 2 ^ 48 + (recordByte r 2).toNat * 2 ^ 40 +
      (recordByte r 3).toNat * 2 ^ 32 + (recordByte r 4).toNat * 2 ^ 24 + (recordByte r 5).toNat * 2 ^ 16 +
      (recordByte r 6).toNat * 2 ^ 8 + (recordByte r 7).toNat := by
  simp only [pack, toNat_append_mul]
  ring

theorem unpack_pack_eight (a b c d e f g h : Byte) :
    unpack 8 (pack [a, b, c, d, e, f, g, h]) = [a, b, c, d, e, f, g, h] := by
  have hp := toNat_pack [a, b, c, d, e, f, g, h]
  simp only [recordByte, List.getElem?_cons_zero, List.getElem?_cons_succ, Option.getD_some] at hp
  simp only [unpack, List.range, List.range.loop, List.map_cons, List.map_nil, List.cons.injEq, and_true]
  refine ⟨?_, ?_, ?_, ?_, ?_, ?_, ?_, ?_⟩ <;> apply BitVec.eq_of_toNat_eq <;>
    rw [BitVec.extractLsb'_toNat, Nat.shiftRight_eq_div_pow, hp] <;> omega

theorem unpack_pack_six (a b c d e f : Byte) :
    unpack 6 (pack [a, b, c, d, e, f]) = [a, b, c, d, e, f] := by
  have hp := toNat_pack [a, b, c, d, e, f]
  simp only [recordByte, List.getElem?_cons_zero, List.getElem?_cons_succ, List.getElem?_nil, Option.getD_some,
    Option.getD_none, BitVec.toNat_ofNat] at hp
  simp only [unpack, List.range, List.range.loop, List.map_cons, List.map_nil, List.cons.injEq, and_true]
  refine ⟨?_, ?_, ?_, ?_, ?_, ?_⟩ <;> apply BitVec.eq_of_toNat_eq <;>
    rw [BitVec.extractLsb'_toNat, Nat.shiftRight_eq_div_pow, hp] <;> omega

/-- A packed record of at most six bytes leaves bits [15:0] zero. -/
theorem pack_six_fits (cfg : Config) (a b c d e f : Byte) : recordFits cfg (pack [a, b, c, d, e, f]) = true := by
  have hz : (pack [a, b, c, d, e, f]).extractLsb' 0 16 = 0#16 := by
    apply BitVec.eq_of_toNat_eq
    rw [BitVec.extractLsb'_toNat, toNat_pack]
    simp only [recordByte, List.getElem?_cons_zero, List.getElem?_cons_succ, List.getElem?_nil, Option.getD_some,
      Option.getD_none, BitVec.toNat_ofNat]
    omega
  simp [recordFits, hz]

end Machine

end Sys2Proof
end

