-- ==== Sys2Proof/Laws/Codec.lean ====
section
/-! SUPPORT. What the Frame Codec's functions and command bodies give, said once (spec/41_codec.md). -/

namespace Sys2Proof.Machine

/-! ## Marker checks (R76, R123, R192) -/

/-- The `info` of a record is 0 exactly where both markers are in place. -/
theorem malformedInfo_eq_zero_iff (cfg : Config) (r : List Byte) :
    malformedInfo cfg r = 0#8 ↔ recordByte r 0 = cfg.startMarker ∧ recordByte r cfg.offEnd = cfg.endMarker := by
  unfold malformedInfo
  split <;> split <;> simp_all

/-- `dec` answers the record's fields exactly where both markers are in place, whatever the interior bytes (R123, R124). -/
theorem dec_of_markers {cfg : Config} {r : List Byte} (h0 : recordByte r 0 = cfg.startMarker)
    (h1 : recordByte r cfg.offEnd = cfg.endMarker) : dec cfg r = .ok (parse cfg r) := by
  simp [dec, (malformedInfo_eq_zero_iff cfg r).2 ⟨h0, h1⟩]

theorem dec_of_not_markers {cfg : Config} {r : List Byte}
    (h : ¬(recordByte r 0 = cfg.startMarker ∧ recordByte r cfg.offEnd = cfg.endMarker)) :
    dec cfg r = .malformed (malformedInfo cfg r) := by
  simp [dec, mt (malformedInfo_eq_zero_iff cfg r).1 h]

/-! ## Frames (R70, R71, R120) -/

theorem enc_wide {cfg : Config} (h : cfg.wide = true) (c : Byte) (t : BitVec 32) (p : BitVec 4) :
    enc cfg c t p = [cfg.startMarker, c, t.extractLsb' 24 8, t.extractLsb' 16 8, t.extractLsb' 8 8,
      t.extractLsb' 0 8, p.setWidth 8, cfg.endMarker] := by
  simp [enc, Config.tsb_wide h, be_four]

theorem enc_narrow {cfg : Config} (h : cfg.wide = false) (c : Byte) (t : BitVec 32) (p : BitVec 4) :
    enc cfg c t p = [cfg.startMarker, c, t.extractLsb' 8 8, t.extractLsb' 0 8, p.setWidth 8, cfg.endMarker] := by
  simp [enc, Config.tsb_narrow h, be_two]

/-- A frame is `RS` bytes long (R75). -/
@[simp] theorem length_enc (cfg : Config) (c : Byte) (t : BitVec 32) (p : BitVec 4) :
    (enc cfg c t p).length = cfg.rs := by
  cases h : cfg.wide
  · simp [enc_narrow h, Config.rs_narrow h]
  · simp [enc_wide h, Config.rs_wide h]

/-- A pin vector is unchanged by the mask, so both settings of `PIN_DECODE_MASK` report it (R125). -/
@[simp] theorem pinsOut_pins (cfg : Config) (p : BitVec 4) : pinsOut cfg (p.setWidth 8) = p.setWidth 8 := by
  unfold pinsOut
  split
  · revert p; decide
  · rfl

/-- The fields of an encoded frame are the operands it was built from (R125). -/
theorem parse_enc {cfg : Config} {t : BitVec 32} (ht : t.toNat < 2 ^ cfg.tw) (c : Byte) (p : BitVec 4) :
    parse cfg (enc cfg c t p) = ⟨c, t, p.setWidth 8, p.setWidth 8⟩ := by
  cases h : cfg.wide
  · have hu := unbe_be_two t
    rw [be_two] at hu
    rw [Config.tw_narrow h] at ht
    simp [enc_narrow h, parse, recordByte, slice, offSeq, offTs, Config.offPin, Config.tsb_narrow h, hu]
    rw [← BitVec.toNat_inj, BitVec.toNat_ofNat]
    omega
  · have hu := unbe_be_four t
    rw [be_four] at hu
    simp [enc_wide h, parse, recordByte, slice, offSeq, offTs, Config.offPin, Config.tsb_wide h, hu]

/-- A frame has both markers in place. -/
theorem enc_markers (cfg : Config) (c : Byte) (t : BitVec 32) (p : BitVec 4) :
    recordByte (enc cfg c t p) 0 = cfg.startMarker ∧ recordByte (enc cfg c t p) cfg.offEnd = cfg.endMarker := by
  cases h : cfg.wide
  · simp [enc_narrow h, recordByte, Config.offEnd, Config.rs_narrow h]
  · simp [enc_wide h, recordByte, Config.offEnd, Config.rs_wide h]

/-- Unpacking a packed frame gives the frame back (R88). -/
theorem unpack_pack_enc (cfg : Config) (c : Byte) (t : BitVec 32) (p : BitVec 4) :
    unpack cfg.rs (pack (enc cfg c t p)) = enc cfg c t p := by
  cases h : cfg.wide
  · rw [enc_narrow h, Config.rs_narrow h, unpack_pack_six]
  · rw [enc_wide h, Config.rs_wide h, unpack_pack_eight]

/-! ## The command bodies -/

/-- Everything that an ENCODE can do: one response from DEV (R120). -/
theorem State.encodeFrame_eq (s : State) (c : Byte) (t : BitVec 32) (p : BitVec 4) :
    s.encodeFrame c t p = s.respond .dev
      (if timestampFits s.cfg t then { value := pack (enc s.cfg c t p) } else { status := .illegal, info := 2#8 }) := by
  unfold State.encodeFrame
  split <;> rfl

/-- Everything that an EMIT can do: one response from DEV, and `SEQ` advances where the operand is in range (R121). -/
theorem State.emitFrame_eq (s : State) (t : BitVec 32) (p : BitVec 4) :
    s.emitFrame t p =
      if timestampFits s.cfg t then
        { s with dev := { s.dev with seq := s.dev.seq + 1#8 }
                 responses := s.responses ++
                   [⟨.dev, { value := pack (enc s.cfg s.dev.seq t p), counter := s.dev.seq }⟩] }
      else { s with responses := s.responses ++ [⟨.dev, { status := .illegal, info := 2#8 }⟩] } := rfl

/-- The response of a DECODE whose payload is `pl` (R122). -/
def decodeResponse (cfg : Config) (pl : Payload) : Response :=
  if recordFits cfg pl then
    match dec cfg (unpack cfg.rs pl) with
    | .ok f => { valid := true, counter := f.counter, timestamp := f.timestamp, pinByte := f.pinByte, pins := f.pins }
    | .malformed info => { status := .malformed, info }
  else { status := .illegal, info := 2#8 }

/-- Everything that a DECODE can do: one response from HOST. -/
theorem State.decodeFrame_eq (s : State) (pl : Payload) :
    s.decodeFrame pl = s.respond .host (decodeResponse s.cfg pl) := by
  unfold State.decodeFrame decodeResponse
  split
  · split <;> simp_all [State.raiseMalformed, State.raise]
  · rfl

end Sys2Proof.Machine
end

