-- ==== Sys2Proof/Laws/Decode.lean ====
section
/-! SUPPORT. What the decoder can answer, and the fields of an encoded word, said once (spec/30_encoding.md). -/

namespace Sys2Proof

/-- Each opcode byte spells its own opcode, so no two rows of R80's table share one. -/
@[simp] theorem Opcode.ofByte_toByte (o : Opcode) : Opcode.ofByte o.toByte = some o := by cases o <;> decide

theorem Opcode.toByte_of_ofByte {b : Byte} {o : Opcode} (h : Opcode.ofByte b = some o) : o.toByte = b := by
  have := List.find?_some h
  simpa using this

@[simp] theorem opcodeField_append (b : Byte) (pl : Payload) : opcodeField (b ++ pl) = b := by
  apply BitVec.eq_of_toNat_eq
  rw [opcodeField, BitVec.extractLsb'_toNat, toNat_append_mul, Nat.shiftRight_eq_div_pow]
  have := b.isLt
  have := pl.isLt
  omega

@[simp] theorem payloadField_append (b : Byte) (pl : Payload) : payloadField (b ++ pl) = pl := by
  apply BitVec.eq_of_toNat_eq
  rw [payloadField, BitVec.extractLsb'_toNat, toNat_append_mul, Nat.shiftRight_eq_div_pow]
  have := pl.isLt
  omega

/-- A command word is its opcode and its payload side by side (R80). -/
theorem opcode_append_payload (w : CmdWord) : opcodeField w ++ payloadField w = w := by
  apply BitVec.eq_of_toNat_eq
  rw [toNat_append_mul, opcodeField, payloadField, BitVec.extractLsb'_toNat, BitVec.extractLsb'_toNat,
    Nat.shiftRight_eq_div_pow, Nat.shiftRight_eq_div_pow]
  have := w.isLt
  omega

/-- Everything that a port can read from a word, in R196's order. -/
theorem decode_cases (cfg : Config) (port : Port) (w : CmdWord) :
    (decode cfg port w = .illegal .notAssigned ∧
      ∀ o, Opcode.ofByte (opcodeField w) = some o → o.unit ≠ port) ∨
    (∃ o, o.toByte = opcodeField w ∧ o.unit = port ∧
      ((payloadField w &&& reservedBits cfg o ≠ 0#64 ∧ decode cfg port w = .illegal .reservedBitSet) ∨
        (payloadField w &&& reservedBits cfg o = 0#64 ∧
          decode cfg port w = .instr (operands cfg (payloadField w) o)))) := by
  cases ho : Opcode.ofByte (opcodeField w) with
  | none => exact .inl ⟨by simp [decode, ho], by simp⟩
  | some o =>
    by_cases hu : o.unit = port
    · refine .inr ⟨o, Opcode.toByte_of_ofByte ho, hu, ?_⟩
      by_cases hr : payloadField w &&& reservedBits cfg o = 0#64
      · exact .inr ⟨hr, by simp [decode, ho, hu, hr]⟩
      · exact .inl ⟨hr, by simp [decode, ho, hu, hr]⟩
    · exact .inl ⟨by simp [decode, ho, hu], by simpa using hu⟩

/-- How a word with an assigned opcode is read at its own port. -/
theorem decode_assigned (cfg : Config) (o : Opcode) (pl : Payload) :
    decode cfg o.unit (o.toByte ++ pl) =
      if pl &&& reservedBits cfg o = 0#64 then .instr (operands cfg pl o) else .illegal .reservedBitSet := by
  simp [decode]

end Sys2Proof
end

