-- ==== Sys2Proof/Laws/PerInstr.lean ====
section
/-! SUPPORT. One fact for each instruction, as syntax: the opcode byte of its word is the one that R80 assigns to it. -/

namespace Sys2Proof.Laws.OpcodeByte

/-- The word of `i` has the opcode byte of R80's table, and that opcode spells `i`'s own command. -/
def Statement (i : Instr) : Prop := Opcode.ofByte (opcodeField (encode i)) = some i.opcode

theorem tick : Statement .tick := by simp [Statement, encode]
theorem now : Statement .now := by simp [Statement, encode]
theorem encodeWide (c : Byte) (t : BitVec 32) (p : BitVec 4) : Statement (.encodeWide c t p) := by
  simp [Statement, encode]
theorem encodeNarrow (c : Byte) (t : BitVec 16) (p : BitVec 4) : Statement (.encodeNarrow c t p) := by
  simp [Statement, encode]
theorem emitWide (t : BitVec 32) (p : BitVec 4) : Statement (.emitWide t p) := by simp [Statement, encode]
theorem emitNarrow (t : BitVec 16) (p : BitVec 4) : Statement (.emitNarrow t p) := by simp [Statement, encode]
theorem decodeWide (r : List Byte) : Statement (.decodeWide r) := by simp [Statement, encode]
theorem decodeNarrow (r : List Byte) : Statement (.decodeNarrow r) := by simp [Statement, encode]
theorem syncIn (b : Byte) : Statement (.syncIn b) := by simp [Statement, encode]
theorem syncClear : Statement .syncClear := by simp [Statement, encode]

end Sys2Proof.Laws.OpcodeByte
end

