-- ==== Sys2Proof/Laws/Sync.lean ====
section
/-! SUPPORT. What the synchronizer's steps can do, said once (spec/42_synchronizer.md R151 to R159). -/

namespace Sys2Proof.Machine

/-! ## Step selection (R151) -/

theorem State.syncAction_nil {s : State} (h : s.host.win = []) : s.syncAction = .wait := by
  simp [State.syncAction, HostUnit.wlen, h]

theorem State.syncAction_stray {s : State} {b : Byte} {w : List Byte} (h : s.host.win = b :: w)
    (hb : b ≠ s.cfg.startMarker) : s.syncAction = .dropResync := by
  simp [State.syncAction, HostUnit.wlen, State.memRead, slice, h, hb]

theorem State.syncAction_short {s : State} {w : List Byte} (h : s.host.win = s.cfg.startMarker :: w)
    (hl : s.host.win.length < s.cfg.rs) : s.syncAction = .wait := by
  have hl' : w.length + 1 < s.cfg.rs := by simpa [h] using hl
  simp [State.syncAction, HostUnit.wlen, State.memRead, slice, h, hl']

/-- The byte at the end-marker position, read as a sequence of one byte. -/
theorem State.memRead_end {s : State} (hl : s.cfg.rs ≤ s.host.win.length) :
    s.memRead (s.cfg.rs - 1) 1 = [recordByte s.host.win (s.cfg.rs - 1)] := by
  have hp := s.cfg.rs_pos
  have hi : s.cfg.rs - 1 < s.host.win.length := by omega
  simp [State.memRead, slice, recordByte, List.take_one_drop_eq_of_lt_length, hi]

theorem State.syncAction_full {s : State} {w : List Byte} (h : s.host.win = s.cfg.startMarker :: w)
    (hl : s.cfg.rs ≤ s.host.win.length) :
    s.syncAction =
      if recordByte s.host.win (s.cfg.rs - 1) = s.cfg.endMarker then .accept else .dropBadEnd := by
  have hne : s.host.wlen ≠ 0 := by simp [HostUnit.wlen, h]
  have hlt : ¬s.host.wlen < s.cfg.rs := by simp only [HostUnit.wlen]; omega
  have h0 : s.memRead 0 1 = [s.cfg.startMarker] := by simp [State.memRead, slice, h]
  simp only [State.syncAction, if_neg hne, h0, if_neg hlt, memRead_end hl, ne_eq, not_true_eq_false, if_false,
    List.cons.injEq, and_true]
  by_cases he : recordByte s.host.win (s.cfg.rs - 1) = s.cfg.endMarker <;> simp [he]

/-- The four cases of R151 together: which action is selected from which window. -/
theorem State.syncAction_cases (s : State) :
    (s.syncAction = .wait ∧ s.Quiescent) ∨
    (s.syncAction = .dropResync ∧ ∃ b w, s.host.win = b :: w ∧ b ≠ s.cfg.startMarker) ∨
    (s.syncAction = .dropBadEnd ∧ ∃ w, s.host.win = s.cfg.startMarker :: w ∧ s.cfg.rs ≤ s.host.win.length ∧
      recordByte s.host.win (s.cfg.rs - 1) ≠ s.cfg.endMarker) ∨
    (s.syncAction = .accept ∧ ∃ w, s.host.win = s.cfg.startMarker :: w ∧ s.cfg.rs ≤ s.host.win.length ∧
      recordByte s.host.win (s.cfg.rs - 1) = s.cfg.endMarker) := by
  rcases hw : s.host.win with _ | ⟨b, w⟩
  · exact .inl ⟨syncAction_nil hw, .inl hw⟩
  · by_cases hb : b = s.cfg.startMarker
    · subst hb
      by_cases hl : s.host.win.length < s.cfg.rs
      · exact .inl ⟨syncAction_short hw hl, .inr ⟨by simp [hw], hl⟩⟩
      · have hfull := syncAction_full hw (Nat.le_of_not_lt hl)
        rw [hw] at hl hfull
        split at hfull
        · exact .inr (.inr (.inr ⟨hfull, w, rfl, Nat.le_of_not_lt hl, by assumption⟩))
        · exact .inr (.inr (.inl ⟨hfull, w, rfl, Nat.le_of_not_lt hl, by assumption⟩))
    · exact .inr (.inl ⟨syncAction_stray hw hb, b, w, rfl, hb⟩)

/-- WAIT is selected exactly on the quiescent windows (R153, R157). -/
theorem State.syncAction_wait_iff (s : State) : s.syncAction = .wait ↔ s.Quiescent := by
  constructor
  · intro h
    rcases s.syncAction_cases with ⟨-, q⟩ | ⟨ha, -⟩ | ⟨ha, -⟩ | ⟨ha, -⟩
    · exact q
    all_goals rw [h] at ha; cases ha
  · rintro (hw | ⟨hh, hl⟩)
    · exact syncAction_nil hw
    · rcases hw : s.host.win with _ | ⟨b, w⟩
      · exact syncAction_nil hw
      · rw [hw] at hh
        have hb : b = s.cfg.startMarker := by simpa using hh
        exact syncAction_short (hw.trans (by rw [hb])) hl

/-- In a quiescent block the window is short of a frame, so an `Append` stays within the capacity `RS` (R157 (a)). -/
theorem State.Quiescent.length_lt {s : State} (h : s.Quiescent) : s.host.win.length < s.cfg.rs := by
  rcases h with h | ⟨-, h⟩
  · simpa [h] using s.cfg.rs_pos
  · exact h

/-- `dec` never answers Malformed at an accept: its fields are those of the candidate (R155). -/
theorem State.dec_of_accept {s : State} (h : s.syncAction = .accept) :
    dec s.cfg (s.memRead 0 s.cfg.rs) = .ok (parse s.cfg (s.memRead 0 s.cfg.rs)) := by
  have hp := s.cfg.rs_pos
  rcases s.syncAction_cases with ⟨ha, -⟩ | ⟨ha, -⟩ | ⟨ha, -⟩ | ⟨-, w, hw, hl, he⟩
  · rw [h] at ha; cases ha
  · rw [h] at ha; cases ha
  · rw [h] at ha; cases ha
  · apply dec_of_markers
    · simp [State.memRead, slice, recordByte, hp, hw]
    · have hi : s.cfg.rs - 1 < s.cfg.rs := by omega
      rw [← he]
      simp [State.memRead, slice, recordByte, Config.offEnd, hi]

/-! ## The step loop (R156) -/

/-- What every action of the step loop keeps, the loop keeps. -/
theorem processLoop_keeps {P : State → Option Record → Nat → Prop}
    (hdrop : ∀ s acc nd, P s acc nd → s.syncAction = .dropResync ∨ s.syncAction = .dropBadEnd →
      P (s.dropFront 1) acc (nd + 1))
    (haccept : ∀ s acc nd, P s acc nd → s.syncAction = .accept → P s.accept (some s.candidate) nd)
    (fuel : Nat) (s : State) (acc : Option Record) (nd : Nat) (h : P s acc nd) :
    P (processLoop fuel acc nd s).state (processLoop fuel acc nd s).acc (processLoop fuel acc nd s).nd := by
  induction fuel generalizing s acc nd with
  | zero => exact h
  | succ fuel ih =>
    unfold processLoop
    split
    · exact h
    · exact ih _ _ _ (hdrop s acc nd h (.inl (by assumption)))
    · exact ih _ _ _ (hdrop s acc nd h (.inr (by assumption)))
    · exact ih _ _ _ (haccept s acc nd h (by assumption))

/-- Every action other than WAIT makes `WLEN` smaller (R156). -/
theorem State.wlen_dropFront_lt {s : State} (h : s.syncAction = .dropResync ∨ s.syncAction = .dropBadEnd) :
    (s.dropFront 1).host.wlen + 1 = s.host.wlen := by
  rcases s.syncAction_cases with ⟨ha, -⟩ | ⟨-, b, w, hw, -⟩ | ⟨-, w, hw, -⟩ | ⟨ha, -⟩
  · rw [ha] at h; simp at h
  · simp [HostUnit.wlen, hw]
  · simp [HostUnit.wlen, hw]
  · rw [ha] at h; simp at h

theorem State.wlen_accept {s : State} (h : s.syncAction = .accept) :
    s.accept.host.wlen + s.cfg.rs = s.host.wlen := by
  rcases s.syncAction_cases with ⟨ha, -⟩ | ⟨ha, -⟩ | ⟨ha, -⟩ | ⟨-, w, -, hl, -⟩
  · rw [h] at ha; cases ha
  · rw [h] at ha; cases ha
  · rw [h] at ha; cases ha
  · simp only [HostUnit.wlen, accept_host, List.length_drop]; omega

/-- The loop ends in WAIT: a bound of `WLEN` actions is enough (R156). -/
theorem processLoop_quiescent (fuel : Nat) (s : State) (acc : Option Record) (nd : Nat) (h : s.host.wlen ≤ fuel) :
    (processLoop fuel acc nd s).state.Quiescent := by
  induction fuel generalizing s acc nd with
  | zero => exact .inl (List.eq_nil_of_length_eq_zero (Nat.le_zero.1 h))
  | succ fuel ih =>
    unfold processLoop
    split
    · exact (State.syncAction_wait_iff s).1 (by assumption)
    · have := State.wlen_dropFront_lt (s := s) (.inl (by assumption))
      exact ih _ _ _ (by omega)
    · have := State.wlen_dropFront_lt (s := s) (.inr (by assumption))
      exact ih _ _ _ (by omega)
    · have := State.wlen_accept (s := s) (by assumption)
      have := s.cfg.rs_pos
      exact ih _ _ _ (by omega)

theorem State.process_quiescent (s : State) : s.process.state.Quiescent :=
  processLoop_quiescent _ _ _ _ (Nat.le_refl _)

/-- With an empty window the loop does nothing, whatever its bound. -/
theorem processLoop_nil (fuel : Nat) (s : State) (acc : Option Record) (nd : Nat) (h : s.host.win = []) :
    processLoop fuel acc nd s = { state := s, acc, nd } := by
  cases fuel with
  | zero => rfl
  | succ fuel => simp [processLoop, State.syncAction_nil h]

/-- Any two bounds of at least `WLEN` actions give the same loop. -/
theorem processLoop_fuel (n m : Nat) (s : State) (acc : Option Record) (nd : Nat) (hn : s.host.wlen ≤ n)
    (hm : s.host.wlen ≤ m) : processLoop n acc nd s = processLoop m acc nd s := by
  induction n generalizing m s acc nd with
  | zero =>
    have hw : s.host.win = [] := List.eq_nil_of_length_eq_zero (Nat.le_zero.1 hn)
    rw [processLoop_nil _ _ _ _ hw, processLoop_nil _ _ _ _ hw]
  | succ n ih =>
    cases m with
    | zero =>
      have hw : s.host.win = [] := List.eq_nil_of_length_eq_zero (Nat.le_zero.1 hm)
      rw [processLoop_nil _ _ _ _ hw, processLoop_nil _ _ _ _ hw]
    | succ m =>
      unfold processLoop
      split
      · rfl
      · have := State.wlen_dropFront_lt (s := s) (.inl (by assumption))
        exact ih _ _ _ _ (by omega) (by omega)
      · have := State.wlen_dropFront_lt (s := s) (.inr (by assumption))
        exact ih _ _ _ _ (by omega) (by omega)
      · have := State.wlen_accept (s := s) (by assumption)
        have := s.cfg.rs_pos
        exact ih _ _ _ _ (by omega) (by omega)

/-! ## What the loop leaves alone -/

/-- The loop touches only the host unit and the output port; on the port it only adds. -/
structure State.LoopFrame (s t : State) : Prop where
  cfg : t.cfg = s.cfg
  dev : t.dev = s.dev
  responses : t.responses = s.responses
  input : t.input = s.input
  output : s.output <+: t.output

theorem processLoop_frame (fuel : Nat) (s : State) (acc : Option Record) (nd : Nat) :
    s.LoopFrame (processLoop fuel acc nd s).state := by
  refine processLoop_keeps (P := fun t _ _ => s.LoopFrame t) ?_ ?_ fuel s acc nd ⟨rfl, rfl, rfl, rfl, List.prefix_rfl⟩
  · intro t _ _ h _
    exact ⟨h.cfg, h.dev, h.responses, h.input, h.output⟩
  · intro t _ _ h _
    exact ⟨h.cfg, h.dev, h.responses, h.input, h.output.trans (List.prefix_append _ _)⟩

theorem State.process_frame (s : State) : s.LoopFrame s.process.state := processLoop_frame _ _ _ _

/-- The loop drops stray bytes at the front of the window one by one (R152). -/
theorem processLoop_stray (fuel : Nat) (s : State) (acc : Option Record) (nd : Nat) (h : s.host.wlen ≤ fuel)
    (hs : s.host.win.length < s.cfg.rs) :
    processLoop fuel acc nd s =
      { state := { s with host := { s.host with win := s.host.win.dropWhile (· != s.cfg.startMarker) } }, acc,
        nd := nd + (s.host.win.length - (s.host.win.dropWhile (· != s.cfg.startMarker)).length) } := by
  induction fuel generalizing s nd with
  | zero =>
    have hw : s.host.win = [] := List.eq_nil_of_length_eq_zero (Nat.le_zero.1 h)
    simp [processLoop, hw]
    rw [← hw]
  | succ fuel ih =>
    rcases hw : s.host.win with _ | ⟨b, w⟩
    · rw [processLoop_nil _ _ _ _ hw]
      simp
      rw [← hw]
    · by_cases hb : b = s.cfg.startMarker
      · subst hb
        simp [processLoop, State.syncAction_short hw hs]
        rw [← hw]
      · have hle : (w.dropWhile (· != s.cfg.startMarker)).length ≤ w.length := (List.dropWhile_suffix _).length_le
        simp only [HostUnit.wlen, hw, List.length_cons] at h hs
        have := ih (s.dropFront 1) (nd + 1) (by simp [HostUnit.wlen, hw]; omega) (by simp [hw]; omega)
        simp only [processLoop, State.syncAction_stray hw hb, this, State.dropFront_host, State.dropFront_cfg, hw,
          List.drop_one, List.tail_cons, List.dropWhile_cons, bne_iff_ne, ne_eq, hb, not_false_eq_true, if_true,
          List.length_cons]
        simp only [State.dropFront, hw, Processed.mk.injEq, true_and]
        omega

/-- The end marker that completes a candidate: one ACCEPT, and then the window is empty (R155, R157). -/
theorem State.process_append_accept {s : State} {w : List Byte} (hw : s.host.win = s.cfg.startMarker :: w)
    (hl : w.length + 2 = s.cfg.rs) :
    (s.append s.cfg.endMarker).process =
      { state := (s.append s.cfg.endMarker).accept, acc := some (s.append s.cfg.endMarker).candidate, nd := 0 } := by
  have hr := s.cfg.rs_cases
  have hlast : recordByte (s.append s.cfg.endMarker).host.win (s.cfg.rs - 1) = s.cfg.endMarker := by
    simp [hw, recordByte, ← hl]
  have hact : (s.append s.cfg.endMarker).syncAction = .accept := by
    rw [syncAction_full (w := w ++ [s.cfg.endMarker]) (by simp [hw]) (by simp [hw]; omega)]
    exact if_pos hlast
  have hlen : (s.append s.cfg.endMarker).host.wlen = w.length + 1 + 1 := by simp [HostUnit.wlen, hw]
  have hnil : (s.append s.cfg.endMarker).accept.host.win = [] := by
    have hwn := wlen_accept hact
    have hrs : (s.append s.cfg.endMarker).cfg.rs = s.cfg.rs := rfl
    exact List.eq_nil_of_length_eq_zero (by simp only [HostUnit.wlen] at hwn hlen; omega)
  rw [State.process, hlen, processLoop, hact]
  exact processLoop_nil _ _ _ _ hnil

end Sys2Proof.Machine
end

