-- ==== Sys2Proof/Laws/Step.lean ====
section
/-! SUPPORT. What an instruction, an input and a step can do, said once; runs taken one input at a time. -/

namespace Sys2Proof.Machine

/-! ## Instructions -/

/-- Every instruction completes (R190). -/
theorem exec_completes (i : Instr) (s : State) : ∃ t, exec i s = .next t := by
  cases i <;> exact ⟨_, rfl⟩

/-- What every instruction leaves alone, and what it may only extend: the build constants and what is still to arrive are
unchanged, one response is added, records are only added to the output port. -/
structure State.InstrFrame (u : Port) (s t : State) : Prop where
  cfg : t.cfg = s.cfg
  input : t.input = s.input
  responses : ∃ r, t.responses = s.responses ++ [⟨u, r⟩]
  output : s.output <+: t.output

theorem State.respond_frame (s : State) (u : Port) (r : Response) : State.InstrFrame u s (s.respond u r) :=
  ⟨rfl, rfl, ⟨r, rfl⟩, List.prefix_rfl⟩

theorem State.emitFrame_frame (s : State) (t : BitVec 32) (p : BitVec 4) :
    State.InstrFrame .dev s (s.emitFrame t p) := by
  rw [emitFrame_eq]
  split <;> exact ⟨rfl, rfl, ⟨_, rfl⟩, List.prefix_rfl⟩

theorem exec_frame {i : Instr} {s t : State} (h : exec i s = .next t) : State.InstrFrame i.unit s t := by
  cases i <;> simp only [exec, execTick, execNow, execEncodeWide, execEncodeNarrow, execEmitWide, execEmitNarrow,
    execDecodeWide, execDecodeNarrow, execSyncIn, execSyncClear, Host.Outcome.next.injEq] at h <;> subst h
  case tick => exact ⟨rfl, rfl, ⟨_, rfl⟩, List.prefix_rfl⟩
  case now => exact State.respond_frame _ _ _
  case encodeWide => rw [State.encodeFrame_eq]; exact State.respond_frame _ _ _
  case encodeNarrow => rw [State.encodeFrame_eq]; exact State.respond_frame _ _ _
  case emitWide => exact State.emitFrame_frame _ _ _
  case emitNarrow => exact State.emitFrame_frame _ _ _
  case decodeWide => rw [State.decodeFrame_eq]; exact State.respond_frame _ _ _
  case decodeNarrow => rw [State.decodeFrame_eq]; exact State.respond_frame _ _ _
  case syncIn b =>
    have f := State.process_frame (s.append b)
    refine ⟨f.cfg, f.input, ⟨syncResponse (s.append b).process.acc (s.append b).process.nd, ?_⟩, f.output⟩
    rw [State.respond_responses, f.responses, State.append_responses]
    rfl
  case syncClear => exact ⟨rfl, rfl, ⟨_, rfl⟩, List.prefix_rfl⟩

/-! ## What arrives later does not matter to an instruction -/

theorem processLoop_withInput (ins : List Input) (fuel : Nat) (s : State) (acc : Option Record) (nd : Nat) :
    processLoop fuel acc nd (s.withInput ins) =
      { processLoop fuel acc nd s with state := (processLoop fuel acc nd s).state.withInput ins } := by
  induction fuel generalizing s acc nd with
  | zero => rfl
  | succ fuel ih =>
    have ha : (s.withInput ins).syncAction = s.syncAction := rfl
    unfold processLoop
    rw [ha]
    split
    · rfl
    · exact ih (s.dropFront 1) acc (nd + 1)
    · exact ih (s.dropFront 1) acc (nd + 1)
    · exact ih s.accept (some s.candidate) nd

theorem State.emitFrame_withInput (s : State) (ins : List Input) (t : BitVec 32) (p : BitVec 4) :
    (s.withInput ins).emitFrame t p = (s.emitFrame t p).withInput ins := by
  cases h : timestampFits s.cfg t
  · simp only [emitFrame_eq, withInput_cfg, h, Bool.false_eq_true, if_false]; rfl
  · simp only [emitFrame_eq, withInput_cfg, h, if_true]; rfl

theorem exec_withInput {i : Instr} {s t : State} (ins : List Input) (h : exec i s = .next t) :
    exec i (s.withInput ins) = .next (t.withInput ins) := by
  cases i <;> simp only [exec, execTick, execNow, execEncodeWide, execEncodeNarrow, execEmitWide, execEmitNarrow,
    execDecodeWide, execDecodeNarrow, execSyncIn, execSyncClear, Host.Outcome.next.injEq] at h ⊢ <;> subst h
  case tick => rfl
  case now => rfl
  case encodeWide => simp only [State.encodeFrame_eq]; rfl
  case encodeNarrow => simp only [State.encodeFrame_eq]; rfl
  case emitWide => rw [State.emitFrame_withInput]
  case emitNarrow => rw [State.emitFrame_withInput]
  case decodeWide => simp only [State.decodeFrame_eq]; rfl
  case decodeNarrow => simp only [State.decodeFrame_eq]; rfl
  case syncIn b =>
    have h := processLoop_withInput ins (s.append b).host.wlen (s.append b) none 0
    have hp : ((s.withInput ins).append b).process =
        { (s.append b).process with state := (s.append b).process.state.withInput ins } := h
    rw [hp]
    rfl
  case syncClear => rfl

/-! ## Inputs and steps -/

/-- Everything that an input can do: power-on, one instruction, or one ILLEGAL response. -/
theorem deliver_cases (a : Input) (s : State) :
    (∃ d, a = .powerOn d ∧ deliver a s = .next (s.powerOn d)) ∨
    (∃ port w i, a = .command port w ∧ decode s.cfg port w = .instr i ∧ deliver a s = exec i s) ∨
    (∃ port w why, a = .command port w ∧ decode s.cfg port w = .illegal why ∧
      deliver a s = .next (s.raiseIllegal port why)) := by
  cases a with
  | powerOn d => exact .inl ⟨d, rfl, rfl⟩
  | command port w =>
    cases hd : decode s.cfg port w with
    | instr i => exact .inr (.inl ⟨port, w, i, rfl, hd, by simp [deliver, hd]⟩)
    | illegal why => exact .inr (.inr ⟨port, w, why, rfl, hd, by simp [deliver, hd]⟩)

theorem deliver_completes (a : Input) (s : State) : ∃ t, deliver a s = .next t := by
  rcases deliver_cases a s with ⟨d, -, h⟩ | ⟨port, w, i, -, -, h⟩ | ⟨port, w, why, -, -, h⟩
  · exact ⟨_, h⟩
  · rw [h]; exact exec_completes i s
  · exact ⟨_, h⟩

theorem deliver_withInput {a : Input} {s t : State} (ins : List Input) (h : deliver a s = .next t) :
    deliver a (s.withInput ins) = .next (t.withInput ins) := by
  rcases deliver_cases a s with ⟨d, rfl, h'⟩ | ⟨port, w, i, rfl, hd, h'⟩ | ⟨port, w, why, rfl, hd, h'⟩
  · rw [h'] at h; cases h; rfl
  · rw [h'] at h
    have hd' : decode (s.withInput ins).cfg port w = .instr i := hd
    simp only [deliver, hd']
    exact exec_withInput ins h
  · rw [h'] at h; cases h
    have hd' : decode (s.withInput ins).cfg port w = .illegal why := hd
    simp only [deliver, hd']
    rfl

theorem deliver_cfg {a : Input} {s t : State} (h : deliver a s = .next t) : t.cfg = s.cfg ∧ t.input = s.input := by
  rcases deliver_cases a s with ⟨d, rfl, h'⟩ | ⟨port, w, i, rfl, hd, h'⟩ | ⟨port, w, why, rfl, hd, h'⟩ <;> rw [h'] at h
  · cases h; exact ⟨rfl, rfl⟩
  · exact ⟨(exec_frame h).cfg, (exec_frame h).input⟩
  · cases h; exact ⟨rfl, rfl⟩

/-- Everything that a step that answers a next state can do: nothing where nothing arrives, or what the next input does. -/
theorem step_cases {s t : State} (h : step s = .next t) :
    s.cfg.wf = true ∧
      ((s.input = [] ∧ t = s) ∨ ∃ a rest, s.input = a :: rest ∧ deliver a (s.withInput rest) = .next t) := by
  unfold step at h
  split at h
  · refine ⟨by assumption, ?_⟩
    split at h
    · cases h; exact .inl ⟨by assumption, rfl⟩
    · exact .inr ⟨_, _, by assumption, h⟩
  · cases h

/-! ## Runs -/

/-- The host's run of the machine is the same as the run that claims speak of. -/
theorem core_run_eq_steps (k : Nat) (s : State) : Host.Core.run Sys2Proof.core k s = steps k s := by
  induction k generalizing s with
  | zero => rfl
  | succ k ih =>
    refine (Host.Core.run.eq_2 Sys2Proof.core s k).trans ?_
    have hs : Sys2Proof.core.step s = step s := rfl
    unfold steps
    rw [hs]
    cases step s with
    | next t => exact ih t
    | fault r => rfl
    | refused r => rfl

@[simp] theorem runInputs_nil (s : State) : runInputs [] s = .next (s.withInput []) := rfl

/-- The first input of a run, then the run over the others. -/
theorem runInputs_cons {a : Input} {s t : State} (hw : s.cfg.wf = true) (h : deliver a s = .next t)
    (ins : List Input) : runInputs (a :: ins) s = runInputs ins t := by
  have hd : deliver a ((s.withInput (a :: ins)).withInput ins) = .next (t.withInput ins) :=
    deliver_withInput (s := s) ins h
  have hs : step (s.withInput (a :: ins)) = .next (t.withInput ins) := by
    simp only [step, State.withInput_cfg, hw, if_true]
    exact hd
  simp only [runInputs, List.length_cons, steps, hs]

/-- A run over two lists, one after the other. -/
theorem runInputs_append {s t : State} (hw : s.cfg.wf = true) (ins rest : List Input)
    (h : runInputs ins s = .next t) : runInputs (ins ++ rest) s = runInputs rest t := by
  induction ins generalizing s with
  | nil => cases h; rfl
  | cons a ins ih =>
    obtain ⟨u, hu⟩ := deliver_completes a s
    rw [runInputs_cons hw hu] at h
    rw [List.cons_append, runInputs_cons hw hu]
    exact ih ((deliver_cfg hu).1 ▸ hw) h

/-- A run of an admitted block completes. -/
theorem runInputs_completes {s : State} (hw : s.cfg.wf = true) (ins : List Input) : ∃ t, runInputs ins s = .next t := by
  induction ins generalizing s with
  | nil => exact ⟨_, rfl⟩
  | cons a ins ih =>
    obtain ⟨u, hu⟩ := deliver_completes a s
    rw [runInputs_cons hw hu]
    exact ih ((deliver_cfg hu).1 ▸ hw)

end Sys2Proof.Machine
end

