-- ==== Sys2Proof/Tests/Slice0.lean ====
section
/-! SUPPORT. The model's own tests: the smoke test of WellFormed, words written out from R82, the vectors of
spec/95_test_vectors.md (its row is named in each comment), and a witness for each statement that has hypotheses. -/

namespace Sys2Proof.Tests

open Sys2Proof.Machine

/-! ## Small blocks -/

/-- Section 0 of spec/95_test_vectors.md: `START_MARKER = 0xA5`, `END_MARKER = 0x5A`, `PIN_DECODE_MASK = 1`. -/
def narrowCfg : Config := ⟨false, 0xA5#8, 0x5A#8, true⟩

def wideCfg : Config := ⟨true, 0xA5#8, 0x5A#8, true⟩

/-- A block with the given registers, nothing put out and nothing arriving. -/
def block (cfg : Config) (dev : Dev) (host : HostUnit) : State :=
  { cfg, dev, host, output := [], responses := [], input := [] }

def emptyHost : HostUnit := ⟨[], 0#8, false⟩

/-- A narrow block with this window. -/
def narrowWindow (w : List Byte) : State := block narrowCfg ⟨0#16, 0#16, 0#8⟩ ⟨w, 0x10#8, true⟩

/-- The state after an outcome, if it answers one. -/
def after : Host.Outcome State Fault Refusal → Option State
  | .next t => some t
  | .fault _ => none
  | .refused _ => none

/-- The responses after an outcome. -/
def replies (o : Host.Outcome State Fault Refusal) : Option (List Reply) := (after o).map (·.responses)

/-! ## WellFormed refuses each ill-formed term -/

theorem test_wf_equal_markers : Config.wf ⟨true, 0xA5#8, 0xA5#8, true⟩ = false := by decide
theorem test_wf_encodeWide_in_narrow : (Instr.encodeWide 0#8 0#32 0#4).wf narrowCfg = false := by decide
theorem test_wf_encodeNarrow_in_wide : (Instr.encodeNarrow 0#8 0#16 0#4).wf wideCfg = false := by decide
theorem test_wf_emitWide_in_narrow : (Instr.emitWide 0#32 0#4).wf narrowCfg = false := by decide
theorem test_wf_emitNarrow_in_wide : (Instr.emitNarrow 0#16 0#4).wf wideCfg = false := by decide
theorem test_wf_decodeWide_in_narrow : (Instr.decodeWide (List.replicate 8 0#8)).wf narrowCfg = false := by decide
theorem test_wf_decodeNarrow_in_wide : (Instr.decodeNarrow (List.replicate 6 0#8)).wf wideCfg = false := by decide
theorem test_wf_decodeWide_length : (Instr.decodeWide (List.replicate 7 0#8)).wf wideCfg = false := by decide
theorem test_wf_decodeNarrow_length : (Instr.decodeNarrow (List.replicate 8 0#8)).wf narrowCfg = false := by decide

/-! ## Words, written out from R80 and R82 or copied from spec/95_test_vectors.md -/

theorem test_decode_tick : decode narrowCfg .dev 0x010000000000000000#72 = .instr .tick := by decide
theorem test_decode_now : decode wideCfg .dev 0x020000000000000000#72 = .instr .now := by decide
/-- R82: `c` at [47:40], `t` at [39:8], `p` at [3:0]. -/
theorem test_decode_encodeWide :
    decode wideCfg .dev 0x100000C1DEADBEEF07#72 = .instr (.encodeWide 0xC1#8 0xDEADBEEF#32 7#4) := by decide
/-- K2. -/
theorem test_decode_encodeNarrow :
    decode narrowCfg .dev 0x100000FF000012340F#72 = .instr (.encodeNarrow 0xFF#8 0x1234#16 0xF#4) := by decide
/-- P4, step 2. -/
theorem test_decode_emitWide :
    decode wideCfg .dev 0x110000000001FFFF03#72 = .instr (.emitWide 0x1FFFF#32 3#4) := by decide
/-- P2, step 5. -/
theorem test_decode_emitNarrow :
    decode narrowCfg .dev 0x110000000000006401#72 = .instr (.emitNarrow 100#16 1#4) := by decide
/-- K12. -/
theorem test_decode_decodeWide : decode wideCfg .host 0x20A50701020304055A#72 =
    .instr (.decodeWide [0xA5#8, 7#8, 1#8, 2#8, 3#8, 4#8, 5#8, 0x5A#8]) := by decide
/-- K13's record, packed by R88. -/
theorem test_decode_decodeNarrow : decode narrowCfg .host 0x2000070102035A0000#72 =
    .instr (.decodeNarrow [0x00#8, 7#8, 1#8, 2#8, 3#8, 0x5A#8]) := by decide
theorem test_decode_syncIn : decode narrowCfg .host 0x2100000000000000A5#72 = .instr (.syncIn 0xA5#8) := by decide
theorem test_decode_syncClear : decode wideCfg .host 0x220000000000000000#72 = .instr .syncClear := by decide
/-- K6. -/
theorem test_decode_narrow_timestamp :
    decode narrowCfg .dev 0x100000000001000000#72 = .illegal .reservedBitSet := by decide
/-- K7. -/
theorem test_decode_reserved_bit :
    decode wideCfg .dev 0x100000000000000010#72 = .illegal .reservedBitSet := by decide
/-- X2. -/
theorem test_decode_wrong_port : decode wideCfg .dev 0x210000000000000000#72 = .illegal .notAssigned := by decide
/-- X4: an unassigned opcode beats the reserved bit. -/
theorem test_decode_unassigned : decode wideCfg .host 0xFF0000000000000001#72 = .illegal .notAssigned := by decide
theorem test_tableWord : decodeTableWord 72 0x210000000000000000 = some (.syncIn 0#8) := by decide

/-! ## One step each -/

/-- C2. -/
theorem test_tick_narrow_wrap :
    (after (exec .tick (block narrowCfg ⟨0xFFFF#16, 0#16, 9#8⟩ emptyHost))).map (·.dev) =
      some ⟨0#16, 0#16, 9#8⟩ := by decide
/-- C5, first command. -/
theorem test_tick_wide_wrap :
    (after (exec .tick (block wideCfg ⟨0xFFFF#16, 0x0012#16, 9#8⟩ emptyHost))).map (·.dev) =
      some ⟨0#16, 0x0013#16, 9#8⟩ := by decide
/-- C3. -/
theorem test_now_narrow :
    replies (exec .now (block narrowCfg ⟨0xABCD#16, 0#16, 0#8⟩ emptyHost)) =
      some [⟨.dev, { value := 0xABCD#64 }⟩] := by decide
/-- C4. -/
theorem test_now_wide :
    replies (exec .now (block wideCfg ⟨0xABCD#16, 0x1234#16, 0#8⟩ emptyHost)) =
      some [⟨.dev, { value := 0x1234ABCD#64 }⟩] := by decide
/-- K4. -/
theorem test_encodeWide :
    replies (exec (.encodeWide 7#8 0x01020304#32 5#4) (block wideCfg ⟨0#16, 0#16, 0#8⟩ emptyHost)) =
      some [⟨.dev, { value := 0xA50701020304055A#64 }⟩] := by decide
/-- K2. -/
theorem test_encodeNarrow :
    replies (exec (.encodeNarrow 0xFF#8 0x1234#16 0xF#4) (narrowWindow [])) =
      some [⟨.dev, { value := 0xA5FF12340F5A0000#64 }⟩] := by decide
/-- P4, step 2. -/
theorem test_emitWide :
    (after (exec (.emitWide 0x1FFFF#32 3#4) (block wideCfg ⟨0#16, 0#16, 0x41#8⟩ emptyHost))).map
      (fun t => (t.dev.seq, t.responses)) =
      some (0x42#8, [⟨.dev, { value := 0xA5410001FFFF035A#64, counter := 0x41#8 }⟩]) := by decide
/-- K8. -/
theorem test_emitNarrow :
    (after (exec (.emitNarrow 1#16 2#4) (block narrowCfg ⟨0#16, 0#16, 0xFF#8⟩ emptyHost))).map
      (fun t => (t.dev.seq, t.responses)) =
      some (0x00#8, [⟨.dev, { value := 0xA5FF0001025A0000#64, counter := 0xFF#8 }⟩]) := by decide
/-- K12. -/
theorem test_decodeWide :
    replies (exec (.decodeWide [0xA5#8, 7#8, 1#8, 2#8, 3#8, 4#8, 5#8, 0x5A#8])
      (block wideCfg ⟨0#16, 0#16, 0#8⟩ emptyHost)) =
      some [⟨.host, { valid := true, counter := 7#8, timestamp := 0x01020304#32, pinByte := 5#8, pins := 5#8 }⟩] := by
  decide
/-- K16. -/
theorem test_decodeNarrow :
    replies (exec (.decodeNarrow [0xA5#8, 0xA5#8, 0x5A#8, 0xA5#8, 0x5A#8, 0x5A#8]) (narrowWindow [])) =
      some [⟨.host,
        { valid := true, counter := 0xA5#8, timestamp := 0x5AA5#32, pinByte := 0x5A#8, pins := 0x0A#8 }⟩] := by
  decide
/-- K15. -/
theorem test_decodeNarrow_malformed :
    replies (exec (.decodeNarrow [0x5A#8, 7#8, 1#8, 2#8, 3#8, 0xA5#8]) (narrowWindow [])) =
      some [⟨.host, { status := .malformed, info := 3#8 }⟩] := by decide
/-- S6, last byte: the inner start marker is kept. -/
theorem test_syncIn_rescan :
    (after (exec (.syncIn 0x99#8) (narrowWindow [0xA5#8, 1#8, 0xA5#8, 3#8, 4#8]))).map
      (fun t => (t.host.win, t.responses)) =
      some ([0xA5#8, 3#8, 4#8, 0x99#8], [⟨.host, { ndisc := 2#8 }⟩]) := by decide
/-- S10: a repeated counter is a gap. -/
theorem test_syncIn_gap :
    (after (exec (.syncIn 0x5A#8) (narrowWindow [0xA5#8, 0x10#8, 0#8, 100#8, 1#8]))).map
      (fun t => (t.host, t.output)) =
      some (⟨[], 0x10#8, true⟩, [⟨0x10#8, 100#32, 1#8, 1#8, true⟩]) := by decide
/-- S12. -/
theorem test_syncClear :
    (after (exec .syncClear (narrowWindow [0xA5#8, 3#8, 0#8]))).map (fun t => (t.host, t.responses)) =
      some (⟨[], 0x10#8, true⟩, [⟨.host, { ndisc := 3#8 }⟩]) := by decide
/-- K10: an ILLEGAL EMIT does not advance `SEQ`. -/
theorem test_step_illegal_emit :
    (after (step { block narrowCfg ⟨0#16, 0#16, 0x33#8⟩ emptyHost with
      input := [.command .dev 0x110000000001000000#72] })).map (fun t => (t.dev.seq, t.responses, t.input)) =
      some (0x33#8, [⟨.dev, { status := .illegal, info := 2#8 }⟩], []) := by decide
/-- The first step after reset runs the word that arrives. -/
theorem test_withFetchWord :
    replies (step (State.reset.withFetchWord 72 0x020000000000000000)) = some [⟨.dev, {}⟩] := by decide

/-! ## Pure functions -/

/-- C9. -/
theorem test_tickSub_narrow : tickSub narrowCfg 0x0005#32 0xFFFB#32 = 0x000A#32 := by decide
/-- C10. -/
theorem test_tickSub_wide : tickSub wideCfg 3#32 0xFFFFFFFE#32 = 5#32 := by decide
/-- T1. -/
theorem test_line_short : Record.line ⟨5#8, 1234#32, 3#8, 3#8, false⟩ =
    [0x35#8, 0x20#8, 0x31#8, 0x32#8, 0x33#8, 0x34#8, 0x20#8, 0x33#8, 0x0A#8] := by decide
/-- T3. -/
theorem test_line_long : Record.line ⟨255#8, 4294967295#32, 15#8, 15#8, true⟩ =
    [0x32#8, 0x35#8, 0x35#8, 0x20#8, 0x34#8, 0x32#8, 0x39#8, 0x34#8, 0x39#8, 0x36#8, 0x37#8, 0x32#8, 0x39#8, 0x35#8,
      0x20#8, 0x31#8, 0x35#8, 0x0A#8] := by decide
/-- K2's source text. -/
theorem test_parse_encode :
    parseLine ['E', 'N', 'C', 'O', 'D', 'E', ' ', '0', 'x', 'F', 'F', ',', ' ', '0', 'x', '1', '2', '3', '4', ',', ' ',
      '0', 'x', 'F'] = some (.encode 0xFF 0x1234 0xF) := by decide
/-- R87: a feed; its operands are hex bytes. -/
theorem test_parse_feed :
    parseLine ['S', 'Y', 'N', 'C', '_', 'F', 'E', 'E', 'D', ' ', '0', '0', ' ', 'A', '5'] =
      some (.syncFeed [0x00, 0xA5]) := by decide
/-- R86: a DECODE whose byte count is not `RS` is refused. -/
theorem test_assemble_decode_count : assemble narrowCfg (.decode [0xA5, 7, 1, 2, 3, 4, 5, 0x5A]) = none := by decide
/-- R86: `NOW` = `0x020000000000000000`. -/
theorem test_wordText : wordText (encode .now) = ['0', 'x', '0', '2'] ++ List.replicate 16 '0' := by decide

/-! ## Witnesses: for each statement with hypotheses, a state and operands that meet them together -/

/-- A wide block one TICK before its wrap. -/
def wideBeforeWrap : State := block wideCfg ⟨0xFFFF#16, 7#16, 0x10#8⟩ emptyHost

/-- A narrow block with an empty window. -/
def narrowIdle : State := block narrowCfg ⟨0#16, 0#16, 0xFF#8⟩ emptyHost

theorem witness_WideNowIsNeverTorn :
    wideBeforeWrap.cfg.wf = true ∧ wideBeforeWrap.cfg.wide = true ∧ wideBeforeWrap.dev.lo.toNat = 65535 := by decide
theorem witness_TickSubIsElapsedTicks : narrowIdle.cfg.wf = true := by decide
theorem witness_wide_commands : wideBeforeWrap.cfg.wide = true := by decide
theorem witness_narrow_commands : narrowIdle.cfg.wide = false := by decide
theorem witness_NarrowTimestampOutOfRangeIsIllegal :
    narrowIdle.cfg.wide = false ∧ 65536 ≤ (0x10000#32).toNat := by decide
theorem witness_OtherVariantWordsRunAsOwnRow :
    wideBeforeWrap.cfg.wide = true ∧ narrowIdle.cfg.wide = false ∧ ((0#8 : Byte) ≠ 0#8 ∨ (1#8 : Byte) ≠ 0#8) := by decide
/-- K13, K14: only the first byte wrong, only the last byte wrong. -/
theorem witness_DecodeChecksOnlyTheMarkers :
    [7#8, 1#8, 2#8, 3#8].length + 2 = narrowIdle.cfg.rs ∧
    ((0x00#8 ≠ narrowIdle.cfg.startMarker ∨ 0x5A#8 ≠ narrowIdle.cfg.endMarker) ∧
      (0xA5#8 ≠ narrowIdle.cfg.startMarker ∨ 0x00#8 ≠ narrowIdle.cfg.endMarker)) := by decide
theorem witness_DecodeUndoesEncode :
    (0xFFFF#32).toNat < 2 ^ narrowIdle.cfg.tw ∧ (0xFFFFFFFF#32).toNat < 2 ^ wideBeforeWrap.cfg.tw := by decide
theorem witness_EmitsNumberTheirFrames :
    narrowIdle.cfg.wf = true ∧ ∀ e ∈ [(0xFFFF#32, 2#4), (0#32, 0#4)], e.1.toNat < 2 ^ narrowIdle.cfg.tw := by
  simp [narrowIdle, block, narrowCfg, Config.wf, Config.tw]
theorem witness_EdgeEmitsTwoFrames :
    narrowIdle.cfg.wf = true ∧ 0 < 2 ^ narrowIdle.cfg.tw ∧ 65535 < 2 ^ narrowIdle.cfg.tw ∧ 0 ≤ 15 ∧ 15 ≤ 15 :=
  ⟨by decide, by decide, show 65535 < 2 ^ 16 by norm_num, by decide, by decide⟩
theorem witness_PureCommandsWriteNoState :
    Instr.now.opcode = .now ∧ (Instr.encodeWide 0#8 0#32 0#4).opcode = .encode ∧
      (Instr.decodeNarrow []).opcode = .decode := by decide
/-- Both clauses, the second with the longest window it allows. -/
theorem witness_SyncInKeepsIncompleteCandidate :
    (narrowIdle.host.win = [] ∧ 0xA5#8 = narrowIdle.cfg.startMarker) ∧
    ((narrowWindow [0xA5#8, 1#8, 2#8, 3#8]).host.win.head? = some narrowCfg.startMarker ∧
      (narrowWindow [0xA5#8, 1#8, 2#8, 3#8]).host.win.length + 1 < narrowCfg.rs) := by decide
theorem witness_SyncInDiscardsStrayByte :
    narrowIdle.host.win = [] ∧ 0x5A#8 ≠ narrowIdle.cfg.startMarker := by decide
theorem witness_SyncInAcceptsNarrowFrame :
    (narrowWindow [0xA5#8, 0x11#8, 0#8, 1#8, 0xF3#8]).cfg.wide = false ∧
    (narrowWindow [0xA5#8, 0x11#8, 0#8, 1#8, 0xF3#8]).host.win =
      [narrowCfg.startMarker, 0x11#8, 0#8, 1#8, 0xF3#8] := by decide
theorem witness_SyncInAcceptsWideFrame :
    (block wideCfg ⟨0#16, 0#16, 0#8⟩ ⟨[0xA5#8, 7#8, 1#8, 2#8, 3#8, 4#8, 5#8], 0#8, false⟩).cfg.wide = true ∧
    (block wideCfg ⟨0#16, 0#16, 0#8⟩ ⟨[0xA5#8, 7#8, 1#8, 2#8, 3#8, 4#8, 5#8], 0#8, false⟩).host.win =
      [wideCfg.startMarker, 7#8, 1#8, 2#8, 3#8, 4#8, 5#8] := by decide
/-- A candidate with a start marker inside it. -/
theorem witness_SyncInRescansAfterBadEnd :
    (narrowWindow [0xA5#8, 1#8, 0xA5#8, 3#8, 4#8]).host.win.head? = some narrowCfg.startMarker ∧
    (narrowWindow [0xA5#8, 1#8, 0xA5#8, 3#8, 4#8]).host.win.length + 1 = narrowCfg.rs ∧
    0x99#8 ≠ narrowCfg.endMarker := by decide
/-- The empty window, and the longest quiescent one. -/
theorem witness_quiescent :
    narrowIdle.Quiescent ∧ (narrowWindow [0xA5#8, 1#8, 0xA5#8, 3#8, 4#8]).Quiescent :=
  ⟨.inl rfl, .inr (by decide)⟩
/-- `k = 0` (the expected counter 0x11), `k = 1` and `k = 256`. -/
theorem witness_GapMissesMultiplesOf256 :
    (narrowWindow [0xA5#8, 0x11#8, 0#8, 1#8, 2#8]).host.lastValid = true ∧
    (narrowWindow [0xA5#8, 0x11#8, 0#8, 1#8, 2#8]).host.win.head? = some narrowCfg.startMarker ∧
    (narrowWindow [0xA5#8, 0x11#8, 0#8, 1#8, 2#8]).host.win.length + 1 = narrowCfg.rs ∧
    (narrowWindow [0xA5#8, 0x11#8, 0#8, 1#8, 2#8]).host.win[1]? = some (0x10#8 + 1#8 + BitVec.ofNat 8 0) ∧
    (narrowWindow [0xA5#8, 0x11#8, 0#8, 1#8, 2#8]).host.win[1]? = some (0x10#8 + 1#8 + BitVec.ofNat 8 256) ∧
    (narrowWindow [0xA5#8, 0x12#8, 0#8, 1#8, 2#8]).host.win[1]? = some (0x10#8 + 1#8 + BitVec.ofNat 8 1) := by decide
theorem witness_ChunkingDoesNotMatter : narrowIdle.cfg.wf = true ∧ narrowIdle.Quiescent := ⟨by decide, .inl rfl⟩
theorem witness_StreamBytesAreConserved :
    narrowIdle.cfg.wf = true ∧ narrowIdle.Quiescent ∧
      ∀ a ∈ [Input.command .host 0x2100000000000000A5#72], ∃ port w, a = .command port w :=
  ⟨by decide, .inl rfl, by simp⟩
/-- A window that holds a torn candidate when the intact frame begins. -/
theorem witness_IntactFrameIsAccepted :
    (narrowWindow [0xA5#8, 7#8]).cfg.wf = true ∧ (narrowWindow [0xA5#8, 7#8]).Quiescent ∧
    [0xA5#8, 3#8, 0#8, 100#8, 1#8, 0x5A#8].length = narrowCfg.rs ∧
    ∃ t, runInputs (feed [0xA5#8, 3#8, 0#8, 100#8, 1#8, 0x5A#8].dropLast) (narrowWindow [0xA5#8, 7#8]) = .next t ∧
      t.output = (narrowWindow [0xA5#8, 7#8]).output :=
  ⟨by decide, .inr (by decide), by decide, _, rfl, by decide⟩
/-- C2 of spec/90_conflicts.md: a garbage byte that is no start marker, and one that is, before a frame whose pin byte is
not the end marker. -/
theorem witness_GarbageByteThenFrame :
    narrowIdle.cfg.wf = true ∧ narrowIdle.host.win = [] ∧ (100#32).toNat < 2 ^ narrowIdle.cfg.tw ∧
    0x00#8 ≠ narrowIdle.cfg.startMarker ∧ (0#4 ++ 1#4 : Byte) ≠ narrowIdle.cfg.endMarker := by decide
/-- S8. -/
theorem witness_StrayMarkerSwallowsFrame :
    narrowIdle.cfg.wf = true ∧ narrowIdle.host.win = [] ∧
    [0xA5#8, 4#8, 0#8, 5#8, 0x5A#8, 0x5A#8].length = narrowIdle.cfg.rs ∧
    [0xA5#8, 4#8, 0#8, 5#8, 0x5A#8, 0x5A#8].head? = some narrowIdle.cfg.startMarker ∧
    [0xA5#8, 4#8, 0#8, 5#8, 0x5A#8, 0x5A#8].getLast? = some narrowIdle.cfg.endMarker ∧
    [0xA5#8, 4#8, 0#8, 5#8, 0x5A#8, 0x5A#8][narrowIdle.cfg.rs - 2]? = some narrowIdle.cfg.endMarker := by decide
theorem witness_EmittedFrameReachesConsumer :
    wideBeforeWrap.cfg.wf = true ∧ (0xFFFFFFFF#32).toNat < 2 ^ wideBeforeWrap.cfg.tw ∧
      wideBeforeWrap.host.win = [] := by decide
/-- X2 and X3: an assigned opcode at each wrong port. -/
theorem witness_UnassignedOpcodeIsIllegal :
    wideBeforeWrap.cfg.wf = true ∧
    (0x210000000000000000#72).extractLsb' 64 8 ∉ [0x01#8, 0x02#8, 0x10#8, 0x11#8] ∧
    (0x020000000000000000#72).extractLsb' 64 8 ∉ [0x20#8, 0x21#8, 0x22#8] := by decide
/-- C13, K10 and S14: a payload bit of TICK, a narrow timestamp bit, the lowest reserved bit of SYNC_IN. -/
theorem witness_ReservedBitIsIllegal :
    narrowIdle.cfg.wf = true ∧
    (0x010000000000000001#72).extractLsb' 0 64 &&& 0xFFFFFFFFFFFFFFFF#64 ≠ 0#64 ∧
    (0x110000000001000000#72).extractLsb' 0 64 &&& 0xFFFFFFFFFF0000F0#64 ≠ 0#64 ∧
    (0x210000000000000100#72).extractLsb' 0 64 &&& 0xFFFFFFFFFFFFFF00#64 ≠ 0#64 := by decide
theorem witness_ErrorsWriteNoState :
    ∃ t r, step { narrowIdle with input := [.command .dev 0#72] } = .next t ∧
      t.responses = narrowIdle.responses ++ [r] ∧ r.response.status ≠ .ok :=
  ⟨_, _, rfl, rfl, by decide⟩
theorem witness_OnlyEqualMarkersAreRefused :
    (block ⟨false, 1#8, 1#8, true⟩ ⟨0#16, 0#16, 0#8⟩ emptyHost).cfg.startMarker =
      (block ⟨false, 1#8, 1#8, true⟩ ⟨0#16, 0#16, 0#8⟩ emptyHost).cfg.endMarker ∧
    narrowIdle.cfg.startMarker ≠ narrowIdle.cfg.endMarker := by decide
theorem witness_DecodeOfEncode :
    (Instr.encodeNarrow 0xFF#8 0xFFFF#16 0xF#4).wf narrowCfg = true ∧
    (Instr.decodeWide (List.replicate 8 0xFF#8)).wf wideCfg = true := by decide
theorem witness_EncodeOfDecode :
    decode narrowCfg .dev 0x100000FF000012340F#72 = .instr (.encodeNarrow 0xFF#8 0x1234#16 0xF#4) := by decide
theorem witness_AssembledWordsHoldTheirOperands :
    ∃ i j k, assemble narrowCfg (.encode 255 65535 15) = some i ∧ assemble narrowCfg (.emit 65535 15) = some j ∧
      assemble narrowCfg (.syncIn 255) = some k :=
  ⟨_, _, _, rfl, rfl, rfl⟩
theorem witness_AssembledInstructionsAreWellFormed :
    ∃ is i, assemble narrowCfg (.decode [0xA5, 7, 1, 2, 3, 0x5A]) = some is ∧ i ∈ is :=
  ⟨_, _, rfl, .head _⟩
theorem witness_PseudoInstructionsExpand : ∃ is, assemble narrowCfg (.syncFeed [0, 255]) = some is := ⟨_, rfl⟩
theorem witness_StepRunsDecodedInstruction :
    narrowIdle.cfg.wf = true ∧ narrowIdle.input = [] ∧
    ({ narrowIdle with input := [.command .dev 0x010000000000000000#72] } : State).input =
      .command .dev 0x010000000000000000#72 :: [] ∧
    decode narrowIdle.cfg .dev 0x010000000000000000#72 = .instr .tick := by decide
theorem witness_OnlyItsWriterChangesARegister :
    ∃ t, exec (.syncIn 0x5A#8) (narrowWindow [0xA5#8, 0x10#8, 0#8, 100#8, 1#8]) = .next t ∧
      t.host.win ≠ (narrowWindow [0xA5#8, 0x10#8, 0#8, 100#8, 1#8]).host.win ∧ t.output ≠ [] :=
  ⟨_, rfl, by decide, by decide⟩
theorem witness_StepOnlyExtendsOutput :
    ∃ t, step { narrowIdle with input := [.powerOn .zero] } = .next t ∧ narrowIdle.Quiescent := ⟨_, rfl, .inl rfl⟩
theorem witness_PowerOnResetsEveryRegister :
    wideBeforeWrap.cfg.wf = true ∧ wideBeforeWrap.cfg.wide = true ∧
    ({ wideBeforeWrap with input := [.powerOn ⟨1#16, 2#16, 3#8, 4#8⟩] } : State).input =
      .powerOn ⟨1#16, 2#16, 3#8, 4#8⟩ :: [] := by decide
theorem witness_PowerOnMeetsTheInvariant : narrowCfg.wf = true ∧ wideCfg.wf = true := by decide
/-- A block with a torn candidate, on which a step runs. -/
theorem witness_StepKeepsTheInvariant :
    ({ narrowWindow [0xA5#8, 7#8] with input := [.command .host 0x2100000000000000A5#72] } : State).Inv ∧
    ∃ t, step { narrowWindow [0xA5#8, 7#8] with input := [.command .host 0x2100000000000000A5#72] } = .next t :=
  ⟨⟨by decide, .inr (by decide), fun _ => rfl, fun _ h => nomatch h⟩, _, rfl⟩
theorem witness_UnitsAreIsolated : wideBeforeWrap.cfg.wf = true := by decide

end Sys2Proof.Tests
end

section
/-! Proofs of the statements about `step` as a whole (spec/00_scope.md R7 and R13), with `step`'s equation in each of its
cases. -/

namespace Sys2Proof.Machine

/-- R7: admitted is the block whose markers differ. -/
theorem wf_iff_markers_ne (cfg : Config) : cfg.wf = true ↔ cfg.startMarker ≠ cfg.endMarker := bne_iff_ne

/-! ## The equations of a step -/

theorem step_of_markers_eq {s : State} (h : s.cfg.startMarker = s.cfg.endMarker) : step s = .refused .equalMarkers :=
  if_neg fun hw => (wf_iff_markers_ne s.cfg).1 hw h

theorem step_of_input_nil {s : State} (hw : s.cfg.wf = true) (hi : s.input = []) : step s = .next s := by
  simp [step, hw, hi]

theorem step_of_input_cons {s : State} {a : Input} {rest : List Input} (hw : s.cfg.wf = true)
    (hi : s.input = a :: rest) : step s = deliver a (s.withInput rest) := by
  simp [step, hw, hi]

/-- R80, R81: a word that decodes at its port runs as the instruction that it decodes to. -/
theorem deliver_command_of_decode {s : State} {port : Port} {w : CmdWord} {i : Instr}
    (hd : decode s.cfg port w = .instr i) : deliver (.command port w) s = exec i s := by
  simp [deliver, hd]

/-- Whether or not something arrives, a step of an admitted block completes (R190, R198). -/
theorem step_completes {s : State} (hw : s.cfg.wf = true) : ∃ t, step s = .next t := by
  cases hi : s.input with
  | nil => exact ⟨s, step_of_input_nil hw hi⟩
  | cons a rest =>
    rw [step_of_input_cons hw hi]
    exact deliver_completes a (s.withInput rest)

/-! ## The statements -/

/-- Settles O41: `step`'s only test is of the markers, and past it every input completes. -/
theorem onlyEqualMarkersAreRefused : Obligations.OnlyEqualMarkersAreRefused := fun s =>
  ⟨step_of_markers_eq, fun h => step_completes ((wf_iff_markers_ne s.cfg).2 h)⟩

/-- Settles O49, by `step`'s equations with and without an input; taking the word does not change the build constants
that it is decoded with. -/
theorem stepRunsDecodedInstruction : Obligations.StepRunsDecodedInstruction := by
  intro s hw
  refine ⟨step_of_input_nil hw, fun port w rest i hi hd => ?_⟩
  have hd' : decode (s.withInput rest).cfg port w = .instr i := hd
  calc step s
      _ = deliver (.command port w) (s.withInput rest) := step_of_input_cons hw hi
      _ = exec i (s.withInput rest) := deliver_command_of_decode hd'

end Sys2Proof.Machine
end

section
/-! Proofs of the statements about who may write which register (spec/10_state.md). What a command does is said as an
effect: a function of the build constants and of the registers of its own unit, and of nothing else of the block. -/

namespace Sys2Proof.Machine

/-! ## Effects -/

/-- What a command does on the device unit: its registers afterwards, and the response. -/
structure DevEffect where
  dev : Dev
  response : Response

/-- What a command does on the host unit: its registers afterwards, the records it emits, and the response. -/
structure HostEffect where
  host : HostUnit
  emitted : List Record
  response : Response

/-- The block after an effect on its device unit. -/
def State.applyDev (s : State) (e : DevEffect) : State := { s with dev := e.dev }.respond .dev e.response

/-- The block after an effect on its host unit. -/
def State.applyHost (s : State) (e : HostEffect) : State :=
  { s with host := e.host, output := s.output ++ e.emitted }.respond .host e.response

section
variable (s : State)

@[simp] theorem State.applyDev_cfg (e : DevEffect) : (s.applyDev e).cfg = s.cfg := rfl
@[simp] theorem State.applyDev_dev (e : DevEffect) : (s.applyDev e).dev = e.dev := rfl
@[simp] theorem State.applyDev_host (e : DevEffect) : (s.applyDev e).host = s.host := rfl
@[simp] theorem State.applyDev_output (e : DevEffect) : (s.applyDev e).output = s.output := rfl
@[simp] theorem State.applyDev_responses (e : DevEffect) :
    (s.applyDev e).responses = s.responses ++ [⟨.dev, e.response⟩] := rfl

@[simp] theorem State.applyHost_cfg (e : HostEffect) : (s.applyHost e).cfg = s.cfg := rfl
@[simp] theorem State.applyHost_dev (e : HostEffect) : (s.applyHost e).dev = s.dev := rfl
@[simp] theorem State.applyHost_host (e : HostEffect) : (s.applyHost e).host = e.host := rfl
@[simp] theorem State.applyHost_output (e : HostEffect) : (s.applyHost e).output = s.output ++ e.emitted := rfl
@[simp] theorem State.applyHost_responses (e : HostEffect) :
    (s.applyHost e).responses = s.responses ++ [⟨.host, e.response⟩] := rfl

/-- A command that only answers on DEV. -/
theorem State.respond_eq_applyDev (r : Response) : s.respond .dev r = s.applyDev ⟨s.dev, r⟩ := rfl

/-- A command that only answers on HOST. -/
theorem State.respond_eq_applyHost (r : Response) : s.respond .host r = s.applyHost ⟨s.host, [], r⟩ := by
  simp [State.applyHost]

end

/-! ## The effect of a device instruction -/

/-- The response of an ENCODE (R120). -/
def encodeResponse (cfg : Config) (c : Byte) (t : BitVec 32) (p : BitVec 4) : Response :=
  if timestampFits cfg t then { value := pack (enc cfg c t p) } else { status := .illegal, info := 2#8 }

/-- The effect of an EMIT (R121). -/
def emitEffect (cfg : Config) (t : BitVec 32) (p : BitVec 4) (d : Dev) : DevEffect :=
  if timestampFits cfg t then
    { dev := { d with seq := d.seq + 1#8 }, response := { value := pack (enc cfg d.seq t p), counter := d.seq } }
  else { dev := d, response := { status := .illegal, info := 2#8 } }

/-- The effect of a device instruction; an instruction of the host unit has none here. -/
def devEffect (cfg : Config) (d : Dev) : Instr → DevEffect
  | .tick => ⟨d.tick cfg, {}⟩
  | .now => ⟨d, { value := (d.now cfg).setWidth 64 }⟩
  | .encodeWide c t p => ⟨d, encodeResponse cfg c t p⟩
  | .encodeNarrow c t p => ⟨d, encodeResponse cfg c (t.setWidth 32) p⟩
  | .emitWide t p => emitEffect cfg t p d
  | .emitNarrow t p => emitEffect cfg (t.setWidth 32) p d
  | .decodeWide _ | .decodeNarrow _ | .syncIn _ | .syncClear => ⟨d, {}⟩

theorem State.encodeFrame_eq_applyDev (s : State) (c : Byte) (t : BitVec 32) (p : BitVec 4) :
    s.encodeFrame c t p = s.applyDev ⟨s.dev, encodeResponse s.cfg c t p⟩ := s.encodeFrame_eq c t p

theorem State.emitFrame_eq_applyDev (s : State) (t : BitVec 32) (p : BitVec 4) :
    s.emitFrame t p = s.applyDev (emitEffect s.cfg t p s.dev) := by
  rw [emitFrame_eq, emitEffect]
  split <;> rfl

/-- A device instruction does what its effect says. -/
theorem exec_dev {i : Instr} (hu : i.unit = .dev) (s : State) :
    exec i s = .next (s.applyDev (devEffect s.cfg s.dev i)) := by
  cases i with
  | tick => rfl
  | now => rfl
  | encodeWide c t p => exact congrArg _ (s.encodeFrame_eq_applyDev c t p)
  | encodeNarrow c t p => exact congrArg _ (s.encodeFrame_eq_applyDev c _ p)
  | emitWide t p => exact congrArg _ (s.emitFrame_eq_applyDev t p)
  | emitNarrow t p => exact congrArg _ (s.emitFrame_eq_applyDev _ p)
  | decodeWide | decodeNarrow | syncIn | syncClear => cases hu

/-! ## The effect of a host instruction -/

/-- A block with the given host unit and nothing else: what the synchronizer sees of a block. -/
def hostBlock (cfg : Config) (h : HostUnit) : State :=
  { cfg, dev := ⟨0#16, 0#16, 0#8⟩, host := h, output := [], responses := [], input := [] }

/-- The host unit and the records of `t`, in the block `s`. -/
def State.inside (t s : State) : State :=
  { t with dev := s.dev, output := s.output ++ t.output, responses := s.responses, input := s.input }

theorem State.accept_inside (t s : State) : (t.inside s).accept = t.accept.inside s := by
  have ho : (s.output ++ t.output) ++ [t.candidate] = s.output ++ (t.output ++ [t.candidate]) :=
    List.append_assoc _ _ _
  exact congrArg (fun o => { t.accept.inside s with output := o }) ho

/-- The step loop reads and writes nothing of the block around the host unit. -/
theorem processLoop_inside (fuel : Nat) (acc : Option Record) (nd : Nat) (t s : State) :
    processLoop fuel acc nd (t.inside s) =
      { processLoop fuel acc nd t with state := (processLoop fuel acc nd t).state.inside s } := by
  induction fuel generalizing acc nd t with
  | zero => rfl
  | succ fuel ih =>
    have ha : (t.inside s).syncAction = t.syncAction := rfl
    unfold processLoop
    rw [ha]
    split
    · rfl
    · exact ih acc (nd + 1) (t.dropFront 1)
    · exact ih acc (nd + 1) (t.dropFront 1)
    · rw [State.accept_inside]
      exact ih (some t.candidate) nd t.accept

/-- What `process()` leaves after byte `b` has reached the host unit `h` (R156). -/
def syncInProcessed (cfg : Config) (b : Byte) (h : HostUnit) : Processed := ((hostBlock cfg h).append b).process

theorem State.process_append_eq (s : State) (b : Byte) :
    (s.append b).process =
      { syncInProcessed s.cfg b s.host with state := (syncInProcessed s.cfg b s.host).state.inside s } := by
  have hs : s.append b = ((hostBlock s.cfg s.host).append b).inside s := by
    simp [State.append, State.inside, hostBlock]
  rw [hs]
  exact processLoop_inside _ _ _ _ _

/-- The effect of a SYNC_IN (R158). -/
def syncInEffect (cfg : Config) (b : Byte) (h : HostUnit) : HostEffect :=
  let done := syncInProcessed cfg b h
  { host := done.state.host, emitted := done.state.output, response := syncResponse done.acc done.nd }

/-- The effect of a host instruction; an instruction of the device unit has none here. -/
def hostEffect (cfg : Config) (h : HostUnit) : Instr → HostEffect
  | .decodeWide r | .decodeNarrow r => ⟨h, [], decodeResponse cfg (pack r)⟩
  | .syncIn b => syncInEffect cfg b h
  | .syncClear => ⟨{ h with win := h.win.drop h.wlen }, [], { ndisc := BitVec.ofNat 8 h.wlen }⟩
  | .tick | .now | .encodeWide _ _ _ | .encodeNarrow _ _ _ | .emitWide _ _ | .emitNarrow _ _ => ⟨h, [], {}⟩

theorem State.decodeFrame_eq_applyHost (s : State) (pl : Payload) :
    s.decodeFrame pl = s.applyHost ⟨s.host, [], decodeResponse s.cfg pl⟩ := by
  rw [decodeFrame_eq, respond_eq_applyHost]

theorem execSyncIn_eq_applyHost (b : Byte) (s : State) :
    execSyncIn b s = .next (s.applyHost (syncInEffect s.cfg b s.host)) := by
  have hcfg : (syncInProcessed s.cfg b s.host).state.cfg = s.cfg :=
    ((hostBlock s.cfg s.host).append b).process_frame.cfg
  simp only [execSyncIn, s.process_append_eq b]
  simp only [State.inside, hcfg]
  rfl

/-- A host instruction does what its effect says. -/
theorem exec_host {i : Instr} (hu : i.unit = .host) (s : State) :
    exec i s = .next (s.applyHost (hostEffect s.cfg s.host i)) := by
  cases i with
  | decodeWide r => exact congrArg _ (s.decodeFrame_eq_applyHost (pack r))
  | decodeNarrow r => exact congrArg _ (s.decodeFrame_eq_applyHost (pack r))
  | syncIn b => exact execSyncIn_eq_applyHost b s
  | syncClear => exact congrArg _ ((s.dropFront s.host.wlen).respond_eq_applyHost _)
  | tick | now | encodeWide | encodeNarrow | emitWide | emitNarrow => cases hu

/-! ## The writer of each register -/

/-- R21, R104: TICK is the only writer of `LO` and `OVF`. -/
theorem devEffect_clock (cfg : Config) (d : Dev) {i : Instr} (h : i ≠ .tick) :
    (devEffect cfg d i).dev.lo = d.lo ∧ (devEffect cfg d i).dev.ovf = d.ovf := by
  have hemit (t p) : (emitEffect cfg t p d).dev.lo = d.lo ∧ (emitEffect cfg t p d).dev.ovf = d.ovf := by
    unfold emitEffect
    split <;> exact ⟨rfl, rfl⟩
  cases i with
  | tick => exact absurd rfl h
  | emitWide t p => exact hemit t p
  | emitNarrow t p => exact hemit _ p
  | now | encodeWide | encodeNarrow | decodeWide | decodeNarrow | syncIn | syncClear => exact ⟨rfl, rfl⟩

/-- R23: EMIT is the only writer of `SEQ`. -/
theorem devEffect_seq (cfg : Config) (d : Dev) {i : Instr} (h : i.opcode ≠ .emit) :
    (devEffect cfg d i).dev.seq = d.seq := by
  cases i with
  | emitWide | emitNarrow => exact absurd rfl h
  | tick | now | encodeWide | encodeNarrow | decodeWide | decodeNarrow | syncIn | syncClear => rfl

/-- R150: SYNC_IN and SYNC_CLEAR are the only writers of the window. -/
theorem hostEffect_win (cfg : Config) (h : HostUnit) {i : Instr} (hi : ¬ ∃ b, i = .syncIn b) (hc : i ≠ .syncClear) :
    (hostEffect cfg h i).host.win = h.win := by
  cases i with
  | syncIn b => exact absurd ⟨b, rfl⟩ hi
  | syncClear => exact absurd rfl hc
  | tick | now | encodeWide | encodeNarrow | emitWide | emitNarrow | decodeWide | decodeNarrow => rfl

/-- R28, R161: SYNC_IN is the only writer of the continuity registers, and alone emits records. -/
theorem hostEffect_continuity (cfg : Config) (h : HostUnit) {i : Instr} (hi : ¬ ∃ b, i = .syncIn b) :
    (hostEffect cfg h i).host.last = h.last ∧ (hostEffect cfg h i).host.lastValid = h.lastValid ∧
      (hostEffect cfg h i).emitted = [] := by
  cases i with
  | syncIn b => exact absurd ⟨b, rfl⟩ hi
  | syncClear | tick | now | encodeWide | encodeNarrow | emitWide | emitNarrow | decodeWide | decodeNarrow =>
    exact ⟨rfl, rfl, rfl⟩

/-- Settles O51: a device instruction leaves the host unit alone and a host instruction the device unit, and within the
unit each register's writer is read off the effect. -/
theorem onlyItsWriterChangesARegister : Obligations.OnlyItsWriterChangesARegister := by
  intro i s t h
  have hframe := exec_frame h
  cases hu : i.unit with
  | dev =>
    rw [exec_dev hu] at h
    cases h
    refine ⟨fun hne => ?_, fun hne => ?_, fun hne => absurd rfl hne, fun hne => ?_, hframe.cfg, hframe.input⟩
    · by_contra hi
      obtain ⟨hlo, hovf⟩ := devEffect_clock s.cfg s.dev hi
      exact hne.elim (· hlo) (· hovf)
    · by_contra hi
      exact hne (devEffect_seq s.cfg s.dev hi)
    · simp at hne
  | host =>
    rw [exec_host hu] at h
    cases h
    refine ⟨fun hne => ?_, fun hne => absurd rfl hne, fun hne => ?_, fun hne => ?_, hframe.cfg, hframe.input⟩
    · simp at hne
    · by_contra hi
      obtain ⟨hin, hclear⟩ := not_or.1 hi
      exact hne (hostEffect_win s.cfg s.host hin hclear)
    · by_contra hi
      obtain ⟨hlast, hvalid, hemitted⟩ := hostEffect_continuity s.cfg s.host hi
      simp [hlast, hvalid, hemitted] at hne

/-! ## A word at a port -/

/-- The operands of a word do not change its opcode. -/
@[simp] theorem operands_opcode (cfg : Config) (pl : Payload) (o : Opcode) : (operands cfg pl o).opcode = o := by
  cases o with
  | tick | now | syncIn | syncClear => rfl
  | encode | emit | decode =>
    simp only [operands]
    split <;> rfl

/-- R81: a port runs only the instructions of its own unit. -/
theorem unit_of_decode {cfg : Config} {port : Port} {w : CmdWord} {i : Instr} (h : decode cfg port w = .instr i) :
    i.unit = port := by
  rcases decode_cases cfg port w with ⟨hd, -⟩ | ⟨o, -, hu, ⟨-, hd⟩ | ⟨-, hd⟩⟩ <;> rw [hd] at h <;> cases h
  rw [Instr.unit, operands_opcode, hu]

/-- The effect of a word at the DEV port. -/
def devWordEffect (w : CmdWord) (cfg : Config) (d : Dev) : DevEffect :=
  match decode cfg .dev w with
  | .instr i => devEffect cfg d i
  | .illegal why => ⟨d, { status := .illegal, info := why.info }⟩

/-- The effect of a word at the HOST port. -/
def hostWordEffect (w : CmdWord) (cfg : Config) (h : HostUnit) : HostEffect :=
  match decode cfg .host w with
  | .instr i => hostEffect cfg h i
  | .illegal why => ⟨h, [], { status := .illegal, info := why.info }⟩

/-- R33: a word at the DEV port reads and writes the device unit alone. -/
theorem deliver_dev (w : CmdWord) (s : State) :
    deliver (.command .dev w) s = .next (s.applyDev (devWordEffect w s.cfg s.dev)) := by
  unfold devWordEffect
  cases hd : decode s.cfg .dev w with
  | instr i => rw [deliver_command_of_decode hd, exec_dev (unit_of_decode hd)]
  | illegal why => simp only [deliver, hd]; rfl

/-- R33: a word at the HOST port reads and writes the host unit alone. -/
theorem deliver_host (w : CmdWord) (s : State) :
    deliver (.command .host w) s = .next (s.applyHost (hostWordEffect w s.cfg s.host)) := by
  unfold hostWordEffect
  cases hd : decode s.cfg .host w with
  | instr i => rw [deliver_command_of_decode hd, exec_host (unit_of_decode hd)]
  | illegal why => simp only [deliver, hd]; exact congrArg _ (s.respond_eq_applyHost _)

/-! ## Blocks that agree on one unit -/

/-- Two blocks with the same build constants whose unit `u` is the same: registers, responses, and for the host unit the
output port. -/
structure State.AgreeOn (u : Port) (s t : State) : Prop where
  cfg : s.cfg = t.cfg
  replies : s.repliesOf u = t.repliesOf u
  dev : u = .dev → s.dev = t.dev
  host : u = .host → s.host = t.host ∧ s.output = t.output

namespace State.AgreeOn

variable {u : Port} {s s' : State}

protected theorem refl (u : Port) (s : State) : s.AgreeOn u s := ⟨rfl, rfl, fun _ => rfl, fun _ => ⟨rfl, rfl⟩⟩

theorem withInput (h : s.AgreeOn u s') (rest rest' : List Input) : (s.withInput rest).AgreeOn u (s'.withInput rest') :=
  ⟨h.cfg, h.replies, h.dev, h.host⟩

theorem powerOn (h : s.AgreeOn u s') (d : Draws) : (s.powerOn d).AgreeOn u (s'.powerOn d) where
  cfg := h.cfg
  replies := h.replies
  dev _ := by simp [h.cfg]
  host hu := ⟨rfl, (h.host hu).2⟩

/-- An effect on the device unit is not seen at the host unit. -/
theorem applyDev_left (h : s.AgreeOn .host s') (e : DevEffect) : (s.applyDev e).AgreeOn .host s' where
  cfg := h.cfg
  replies := by simpa [repliesOf] using h.replies
  dev hu := nomatch hu
  host := h.host

/-- An effect on the host unit is not seen at the device unit. -/
theorem applyHost_left (h : s.AgreeOn .dev s') (e : HostEffect) : (s.applyHost e).AgreeOn .dev s' where
  cfg := h.cfg
  replies := by simpa [repliesOf] using h.replies
  dev := h.dev
  host hu := nomatch hu

theorem applyDev (h : s.AgreeOn .dev s') (e : DevEffect) : (s.applyDev e).AgreeOn .dev (s'.applyDev e) where
  cfg := h.cfg
  replies := by simpa [repliesOf] using h.replies
  dev _ := rfl
  host hu := nomatch hu

theorem applyHost (h : s.AgreeOn .host s') (e : HostEffect) : (s.applyHost e).AgreeOn .host (s'.applyHost e) where
  cfg := h.cfg
  replies := by simpa [repliesOf] using h.replies
  dev hu := nomatch hu
  host _ := ⟨rfl, by simp [(h.host rfl).2]⟩

end State.AgreeOn

/-! ## Non-interference -/

/-- An input that does not reach a unit leaves it as it was. -/
theorem deliver_agreeOn_left {u : Port} {a : Input} {s s' t : State} (ha : a.reaches u = false) (h : s.AgreeOn u s')
    (ht : deliver a s = .next t) : t.AgreeOn u s' := by
  cases a with
  | powerOn d => cases ha
  | command port w =>
    cases u <;> cases port
    case dev.dev | host.host => cases ha
    case dev.host => rw [deliver_host] at ht; cases ht; exact h.applyHost_left _
    case host.dev => rw [deliver_dev] at ht; cases ht; exact h.applyDev_left _

/-- An input that reaches a unit does the same to it in blocks that agree on it. -/
theorem deliver_agreeOn {u : Port} {a : Input} {s s' t t' : State} (ha : a.reaches u = true) (h : s.AgreeOn u s')
    (ht : deliver a s = .next t) (ht' : deliver a s' = .next t') : t.AgreeOn u t' := by
  cases a with
  | powerOn d => cases ht; cases ht'; exact h.powerOn d
  | command port w =>
    cases u <;> cases port
    case dev.host | host.dev => cases ha
    case dev.dev =>
      rw [deliver_dev] at ht ht'
      rw [← h.cfg, ← h.dev rfl] at ht'
      cases ht; cases ht'; exact h.applyDev _
    case host.host =>
      rw [deliver_host] at ht ht'
      rw [← h.cfg, ← (h.host rfl).1] at ht'
      cases ht; cases ht'; exact h.applyHost _

/-- R33 along a run: of two blocks that agree on a unit, one takes every input and the other only those that reach the
unit, and they still agree on it. -/
theorem runInputs_filter_agreeOn {u : Port} (ins : List Input) {s s' t t' : State} (hw : s.cfg.wf = true)
    (h : s.AgreeOn u s') (ht : runInputs ins s = .next t)
    (ht' : runInputs (ins.filter (·.reaches u)) s' = .next t') : t.AgreeOn u t' := by
  induction ins generalizing s s' with
  | nil => cases ht; cases ht'; exact h.withInput [] []
  | cons a ins ih =>
    obtain ⟨v, hv⟩ := deliver_completes a s
    have hwv : v.cfg.wf = true := (deliver_cfg hv).1 ▸ hw
    rw [runInputs_cons hw hv] at ht
    cases ha : a.reaches u with
    | false =>
      rw [List.filter_cons_of_neg (by simp [ha])] at ht'
      exact ih hwv (deliver_agreeOn_left ha h hv) ht ht'
    | true =>
      obtain ⟨v', hv'⟩ := deliver_completes a s'
      rw [List.filter_cons_of_pos ha, runInputs_cons (h.cfg ▸ hw) hv'] at ht'
      exact ih hwv (deliver_agreeOn ha h hv hv') ht ht'

/-- Settles O56: both runs complete, and by induction over the inputs they agree on the unit. -/
theorem unitsAreIsolated : Obligations.UnitsAreIsolated := by
  intro u s ins hw
  obtain ⟨t, ht⟩ := runInputs_completes hw ins
  obtain ⟨t', ht'⟩ := runInputs_completes hw (ins.filter (·.reaches u))
  have h := runInputs_filter_agreeOn ins hw (.refl u s) ht ht'
  exact ⟨t, t', ht, ht', h.replies, h.dev, h.host⟩

end Sys2Proof.Machine
end


section
/-! Proof of the statement about the commands that write no state (spec/20_memory.md R63). -/

namespace Sys2Proof.Machine

/-- Two responses in turn stand one after the other, and nothing else is written. -/
theorem State.respond_respond (s : State) (u u' : Port) (r r' : Response) :
    (s.respond u r).respond u' r' = { s with responses := s.responses ++ [⟨u, r⟩, ⟨u', r'⟩] } := by
  simp [respond]

/-- R101: NOW answers with a value that is read off the build constants and the device registers. -/
theorem exec_now (s : State) : exec .now s = .next (s.respond .dev { value := (s.dev.now s.cfg).setWidth 64 }) := rfl

/-- A second NOW reads the registers that the first one left alone. -/
theorem exec_now_respond (s : State) (u : Port) (r : Response) :
    exec .now (s.respond u r) =
      .next ((s.respond u r).respond .dev { value := (s.dev.now s.cfg).setWidth 64 }) := by
  rw [exec_now, State.respond_dev, State.respond_cfg]

/-- R63: NOW, ENCODE and DECODE only answer, on the port of their unit. -/
theorem exec_pure {i : Instr} (h : i.opcode = .now ∨ i.opcode = .encode ∨ i.opcode = .decode) (s : State) :
    ∃ r, exec i s = .next (s.respond i.unit r) := by
  cases i with
  | now => exact ⟨_, exec_now s⟩
  | encodeWide c t p => exact ⟨_, congrArg _ (s.encodeFrame_eq c t p)⟩
  | encodeNarrow c t p => exact ⟨_, congrArg _ (s.encodeFrame_eq c _ p)⟩
  | decodeWide r => exact ⟨_, congrArg _ (s.decodeFrame_eq (pack r))⟩
  | decodeNarrow r => exact ⟨_, congrArg _ (s.decodeFrame_eq (pack r))⟩
  | tick | emitWide | emitNarrow | syncIn | syncClear => simp [Instr.opcode] at h

/-- Settles O21: each of the three only answers, and what NOW answers does not depend on the responses given before. -/
theorem pureCommandsWriteNoState : Obligations.PureCommandsWriteNoState := by
  intro i s h
  by_cases hi : i = .now
  · subst hi
    exact ⟨_, exec_now s, fun _ => (exec_now_respond s _ _).trans (congrArg _ (s.respond_respond _ _ _ _))⟩
  · obtain ⟨r, hr⟩ := exec_pure h s
    exact ⟨⟨i.unit, r⟩, hr, fun hnow => absurd hnow hi⟩

end Sys2Proof.Machine
end

section
/-! Proofs of the statements that decoder and encoder agree (spec/30_encoding.md R80, R82, R84, R86 and R88): a payload is
read as a number whose digits are its fields. -/

namespace Sys2Proof.Machine

/-! ## Fields as digits of a number -/

/-- The field of `n` bits from bit `k` up, as a number. -/
theorem toNat_extractLsb'_div {w : Nat} (x : BitVec w) (k n : Nat) :
    (x.extractLsb' k n).toNat = x.toNat / 2 ^ k % 2 ^ n := by
  rw [BitVec.extractLsb'_toNat, Nat.shiftRight_eq_div_pow]

theorem toNat_counterField (pl : Payload) : (counterField pl).toNat = pl.toNat / 2 ^ 40 % 2 ^ 8 :=
  toNat_extractLsb'_div pl 40 8

theorem toNat_timestampField (pl : Payload) : (timestampField pl).toNat = pl.toNat / 2 ^ 8 % 2 ^ 32 :=
  toNat_extractLsb'_div pl 8 32

theorem toNat_timestampFieldNarrow (pl : Payload) : (timestampFieldNarrow pl).toNat = pl.toNat / 2 ^ 8 % 2 ^ 16 :=
  toNat_extractLsb'_div pl 8 16

theorem toNat_pinsField (pl : Payload) : (pinsField pl).toNat = pl.toNat % 2 ^ 4 := by
  rw [pinsField, toNat_extractLsb'_div, pow_zero, Nat.div_one]

theorem toNat_byteField (pl : Payload) : (byteField pl).toNat = pl.toNat % 2 ^ 8 := by
  rw [byteField, toNat_extractLsb'_div, pow_zero, Nat.div_one]

/-! ## Reserved payload bits (R84) -/

/-- The payload bits `[k + n - 1 : k]` as a mask. -/
def fieldMask (k n : Nat) : Payload := (BitVec.allOnes n).setWidth 64 <<< k

theorem and_fieldMask_eq_zero_iff (pl : Payload) (k n : Nat) :
    pl &&& fieldMask k n = 0#64 ↔ pl.toNat / 2 ^ k % 2 ^ n = 0 := by
  have hbits : pl &&& fieldMask k n = 0#64 ↔ pl.extractLsb' k n = 0#n := by
    constructor <;> intro h <;> apply BitVec.eq_of_getLsbD_eq <;> intro j hj
    · have hb := congrArg (·.getLsbD (k + j)) h
      by_cases hk : k + j < 64
      · simpa [fieldMask, hj, hk, show j < 64 by omega] using hb
      · simp [BitVec.getLsbD_of_ge pl (k + j) (by omega)]
    · have hb := congrArg (·.getLsbD (j - k)) h
      by_cases hk : k ≤ j ∧ j < k + n
      · have hjk : k + (j - k) = j := by omega
        simpa [fieldMask, hj, hk, hjk, show j - k < n by omega, show ¬ j < k by omega] using hb
      · simp [fieldMask]; omega
  rw [hbits, ← BitVec.toNat_inj, toNat_extractLsb'_div, BitVec.toNat_zero]

/-- The fields, as lowest bit and width, that R82's layouts and R84's range checks require to be zero. -/
def reservedFields (cfg : Config) : Opcode → List (Nat × Nat)
  | .tick | .now | .syncClear => [(0, 64)]
  | .encode => if cfg.wide then [(48, 16), (4, 4)] else [(48, 16), (24, 16), (4, 4)]
  | .emit => if cfg.wide then [(40, 24), (4, 4)] else [(24, 40), (4, 4)]
  | .decode => if cfg.wide then [] else [(0, 16)]
  | .syncIn => [(8, 56)]

/-- The mask of several fields. -/
def fieldsMask (fs : List (Nat × Nat)) : Payload := fs.foldr (fun f m => fieldMask f.1 f.2 ||| m) 0#64

theorem and_fieldsMask_eq_zero_iff (pl : Payload) (fs : List (Nat × Nat)) :
    pl &&& fieldsMask fs = 0#64 ↔ fs.Forall fun f => pl.toNat / 2 ^ f.1 % 2 ^ f.2 = 0 := by
  induction fs with
  | nil => simp [fieldsMask]
  | cons f fs ih =>
    have hcons : fieldsMask (f :: fs) = fieldMask f.1 f.2 ||| fieldsMask fs := rfl
    rw [hcons, BitVec.and_or_distrib_left, BitVec.or_eq_zero_iff, and_fieldMask_eq_zero_iff, ih, List.forall_cons]

theorem reservedBits_eq_fieldsMask (cfg : Config) (o : Opcode) :
    reservedBits cfg o = fieldsMask (reservedFields cfg o) := by
  cases hw : cfg.wide <;> cases o <;> simp only [reservedBits, reservedFields, hw] <;> decide

/-- A payload passes R84's check exactly where each reserved field of its layout is zero. -/
theorem reserved_clear_iff (cfg : Config) (o : Opcode) (pl : Payload) :
    pl &&& reservedBits cfg o = 0#64 ↔ (reservedFields cfg o).Forall fun f => pl.toNat / 2 ^ f.1 % 2 ^ f.2 = 0 := by
  rw [reservedBits_eq_fieldsMask, and_fieldsMask_eq_zero_iff]

/-! ## Payloads as numbers (R82, R86) -/

theorem toNat_payload_encodeWide (c : Byte) (t : BitVec 32) (p : BitVec 4) :
    (Instr.encodeWide c t p).payload.toNat = c.toNat * 2 ^ 40 + t.toNat * 2 ^ 8 + p.toNat := by
  simp only [Instr.payload, toNat_append_mul, BitVec.toNat_zero]
  ring

theorem toNat_payload_encodeNarrow (c : Byte) (t : BitVec 16) (p : BitVec 4) :
    (Instr.encodeNarrow c t p).payload.toNat = c.toNat * 2 ^ 40 + t.toNat * 2 ^ 8 + p.toNat := by
  simp only [Instr.payload, toNat_append_mul, BitVec.toNat_zero]
  ring

theorem toNat_payload_emitWide (t : BitVec 32) (p : BitVec 4) :
    (Instr.emitWide t p).payload.toNat = t.toNat * 2 ^ 8 + p.toNat := by
  simp only [Instr.payload, toNat_append_mul, BitVec.toNat_zero]
  ring

theorem toNat_payload_emitNarrow (t : BitVec 16) (p : BitVec 4) :
    (Instr.emitNarrow t p).payload.toNat = t.toNat * 2 ^ 8 + p.toNat := by
  simp only [Instr.payload, toNat_append_mul, BitVec.toNat_zero]
  ring

theorem toNat_payload_syncIn (b : Byte) : (Instr.syncIn b).payload.toNat = b.toNat := by
  simp only [Instr.payload, toNat_append_mul, BitVec.toNat_zero]
  ring

/-! ## Packed records as numbers (R88) -/

theorem recordByte_of_length_le {r : List Byte} {i : Nat} (h : r.length ≤ i) : recordByte r i = 0#8 := by
  simp [recordByte, h]

theorem recordByte_unpack {n i : Nat} (h : i < n) (pl : Payload) :
    recordByte (unpack n pl) i = pl.extractLsb' (56 - 8 * i) 8 := by
  simp [recordByte, unpack, h]

theorem unpack_pack_of_length_eight : ∀ {r : List Byte}, r.length = 8 → unpack 8 (pack r) = r
  | [_, _, _, _, _, _, _, _], _ => unpack_pack_eight ..

theorem unpack_pack_of_length_six : ∀ {r : List Byte}, r.length = 6 → unpack 6 (pack r) = r
  | [_, _, _, _, _, _], _ => unpack_pack_six ..

theorem toNat_recordByte_unpack {n i : Nat} (h : i < n) (pl : Payload) :
    (recordByte (unpack n pl) i).toNat = pl.toNat / 2 ^ (56 - 8 * i) % 2 ^ 8 := by
  rw [recordByte_unpack h, toNat_extractLsb'_div]

theorem pack_unpack_eight (pl : Payload) : pack (unpack 8 pl) = pl := by
  apply BitVec.eq_of_toNat_eq
  rw [toNat_pack]
  simp only [toNat_recordByte_unpack, Nat.reduceLT]
  omega

theorem pack_unpack_six {pl : Payload} (h : pl.toNat % 2 ^ 16 = 0) : pack (unpack 6 pl) = pl := by
  apply BitVec.eq_of_toNat_eq
  rw [toNat_pack, recordByte_of_length_le (i := 6) (by simp), recordByte_of_length_le (i := 7) (by simp)]
  simp only [toNat_recordByte_unpack, Nat.reduceLT, BitVec.toNat_zero]
  omega

/-! ## Operands and payloads (R82, R86) -/

/-- The operands of a payload whose reserved bits are clear spell that payload. -/
theorem payload_operands {cfg : Config} {o : Opcode} {pl : Payload} (h : pl &&& reservedBits cfg o = 0#64) :
    (operands cfg pl o).payload = pl := by
  have hz := (reserved_clear_iff cfg o pl).1 h
  have hlt := pl.isLt
  cases o with
  | tick | now | syncClear =>
    have hz0 : pl.toNat / 2 ^ 0 % 2 ^ 64 = 0 := hz
    apply BitVec.eq_of_toNat_eq
    simp only [operands, Instr.payload, BitVec.toNat_zero]
    omega
  | encode =>
    apply BitVec.eq_of_toNat_eq
    cases hw : cfg.wide <;>
      simp only [operands, reservedFields, hw, List.Forall, if_true, Bool.false_eq_true, if_false] at hz ⊢
    · rw [toNat_payload_encodeNarrow, toNat_counterField, toNat_timestampFieldNarrow, toNat_pinsField]
      omega
    · rw [toNat_payload_encodeWide, toNat_counterField, toNat_timestampField, toNat_pinsField]
      omega
  | emit =>
    apply BitVec.eq_of_toNat_eq
    cases hw : cfg.wide <;>
      simp only [operands, reservedFields, hw, List.Forall, if_true, Bool.false_eq_true, if_false] at hz ⊢
    · rw [toNat_payload_emitNarrow, toNat_timestampFieldNarrow, toNat_pinsField]
      omega
    · rw [toNat_payload_emitWide, toNat_timestampField, toNat_pinsField]
      omega
  | decode =>
    cases hw : cfg.wide <;>
      simp only [operands, reservedFields, hw, List.Forall, if_true, Bool.false_eq_true, if_false] at hz ⊢
    · exact pack_unpack_six (by omega)
    · exact pack_unpack_eight pl
  | syncIn =>
    have hz8 : pl.toNat / 2 ^ 8 % 2 ^ 56 = 0 := hz
    apply BitVec.eq_of_toNat_eq
    rw [operands, toNat_payload_syncIn, toNat_byteField]
    omega

/-! ## The rows of a block's width (R82, R85) -/

theorem wf_encodeNarrow_iff {cfg : Config} {c : Byte} {t : BitVec 16} {p : BitVec 4} :
    (Instr.encodeNarrow c t p).wf cfg = true ↔ cfg.wide = false := by simp [Instr.wf]

theorem wf_emitNarrow_iff {cfg : Config} {t : BitVec 16} {p : BitVec 4} :
    (Instr.emitNarrow t p).wf cfg = true ↔ cfg.wide = false := by simp [Instr.wf]

theorem wf_decodeWide_iff {cfg : Config} {r : List Byte} :
    (Instr.decodeWide r).wf cfg = true ↔ cfg.wide = true ∧ r.length = 8 := by simp [Instr.wf]

theorem wf_decodeNarrow_iff {cfg : Config} {r : List Byte} :
    (Instr.decodeNarrow r).wf cfg = true ↔ cfg.wide = false ∧ r.length = 6 := by simp [Instr.wf]

/-- The row that a block of this width reads is well-formed for it. -/
theorem operands_wf (cfg : Config) (pl : Payload) (o : Opcode) : (operands cfg pl o).wf cfg = true := by
  cases hw : cfg.wide <;> cases o <;> simp [operands, Instr.wf, hw]

/-- A packed record of six bytes leaves bits [15:0] zero. -/
theorem toNat_pack_mod_of_length_six {r : List Byte} (h : r.length = 6) : (pack r).toNat % 2 ^ 16 = 0 := by
  rw [toNat_pack, recordByte_of_length_le (i := 6) (by omega), recordByte_of_length_le (i := 7) (by omega),
    BitVec.toNat_zero]
  omega

/-- A well-formed instruction leaves the reserved bits of its payload clear. -/
theorem payload_reserved_clear {cfg : Config} {i : Instr} (h : i.wf cfg = true) :
    i.payload &&& reservedBits cfg i.opcode = 0#64 := by
  rw [reserved_clear_iff]
  cases i with
  | tick | now | syncClear => exact Nat.zero_mod _
  | encodeWide c t p =>
    have hw : cfg.wide = true := h
    simp only [Instr.opcode, reservedFields, hw, if_true, List.Forall, toNat_payload_encodeWide]
    omega
  | encodeNarrow c t p =>
    have hw := wf_encodeNarrow_iff.1 h
    simp only [Instr.opcode, reservedFields, hw, Bool.false_eq_true, if_false, List.Forall, toNat_payload_encodeNarrow]
    omega
  | emitWide t p =>
    have hw : cfg.wide = true := h
    simp only [Instr.opcode, reservedFields, hw, if_true, List.Forall, toNat_payload_emitWide]
    omega
  | emitNarrow t p =>
    have hw := wf_emitNarrow_iff.1 h
    simp only [Instr.opcode, reservedFields, hw, Bool.false_eq_true, if_false, List.Forall, toNat_payload_emitNarrow]
    omega
  | decodeWide r =>
    obtain ⟨hw, -⟩ := wf_decodeWide_iff.1 h
    simp only [Instr.opcode, reservedFields, hw, if_true, List.Forall]
  | decodeNarrow r =>
    obtain ⟨hw, hr⟩ := wf_decodeNarrow_iff.1 h
    simpa [Instr.opcode, Instr.payload, reservedFields, hw] using toNat_pack_mod_of_length_six hr
  | syncIn b =>
    simp only [Instr.opcode, reservedFields, List.Forall, toNat_payload_syncIn]
    omega

/-- The payload of a well-formed instruction holds its operands. -/
theorem operands_payload {cfg : Config} {i : Instr} (h : i.wf cfg = true) : operands cfg i.payload i.opcode = i := by
  cases i with
  | tick | now | syncClear => rfl
  | encodeWide c t p =>
    have hw : cfg.wide = true := h
    simp only [operands, Instr.opcode, hw, if_true, Instr.encodeWide.injEq, ← BitVec.toNat_inj, toNat_counterField,
      toNat_timestampField, toNat_pinsField, toNat_payload_encodeWide]
    omega
  | encodeNarrow c t p =>
    have hw := wf_encodeNarrow_iff.1 h
    simp only [operands, Instr.opcode, hw, Bool.false_eq_true, if_false, Instr.encodeNarrow.injEq, ← BitVec.toNat_inj,
      toNat_counterField, toNat_timestampFieldNarrow, toNat_pinsField, toNat_payload_encodeNarrow]
    omega
  | emitWide t p =>
    have hw : cfg.wide = true := h
    simp only [operands, Instr.opcode, hw, if_true, Instr.emitWide.injEq, ← BitVec.toNat_inj, toNat_timestampField,
      toNat_pinsField, toNat_payload_emitWide]
    omega
  | emitNarrow t p =>
    have hw := wf_emitNarrow_iff.1 h
    simp only [operands, Instr.opcode, hw, Bool.false_eq_true, if_false, Instr.emitNarrow.injEq, ← BitVec.toNat_inj,
      toNat_timestampFieldNarrow, toNat_pinsField, toNat_payload_emitNarrow]
    omega
  | decodeWide r =>
    obtain ⟨hw, hr⟩ := wf_decodeWide_iff.1 h
    simpa [operands, Instr.opcode, Instr.payload, hw] using unpack_pack_of_length_eight hr
  | decodeNarrow r =>
    obtain ⟨hw, hr⟩ := wf_decodeNarrow_iff.1 h
    simpa [operands, Instr.opcode, Instr.payload, hw] using unpack_pack_of_length_six hr
  | syncIn b =>
    simp only [operands, Instr.opcode, Instr.syncIn.injEq, ← BitVec.toNat_inj, toNat_byteField, toNat_payload_syncIn]
    omega

/-- Settles O42: the encoded word has the opcode of the instruction's own port, its reserved bits are clear, and its
payload holds the operands. -/
theorem decodeOfEncode : Obligations.DecodeOfEncode := by
  intro cfg i h
  rw [encode, Instr.unit, decode_assigned, if_pos (payload_reserved_clear h), operands_payload h]

/-- What an instruction says of the word it was read from: the opcode is the port's own, the reserved bits are clear, and
the instruction holds the payload's operands. -/
theorem exists_operands_of_decode {cfg : Config} {port : Port} {w : CmdWord} {i : Instr}
    (h : decode cfg port w = .instr i) :
    ∃ o : Opcode, o.toByte = opcodeField w ∧ o.unit = port ∧ payloadField w &&& reservedBits cfg o = 0#64 ∧
      operands cfg (payloadField w) o = i := by
  rcases decode_cases cfg port w with ⟨hd, -⟩ | ⟨o, ho, hu, ⟨-, hd⟩ | ⟨hr, hd⟩⟩ <;> rw [hd] at h <;> cases h
  exact ⟨o, ho, hu, hr, rfl⟩

/-- Settles O43: a port reads an instruction only where opcode and reserved bits pass, and then the operands spell the
whole word. -/
theorem encodeOfDecode : Obligations.EncodeOfDecode := by
  intro cfg port w i h
  refine ⟨?_, unit_of_decode h, ?_⟩ <;> obtain ⟨o, ho, -, hr, rfl⟩ := exists_operands_of_decode h
  · rw [encode, operands_opcode, payload_operands hr, ho, opcode_append_payload]
  · exact operands_wf cfg _ o

end Sys2Proof.Machine
end

section
/-! Proofs of the statements about the opcode table (spec/opcode_table.json) and about the words that a port refuses
(spec/30_encoding.md R81 and R84). -/

namespace Sys2Proof.Machine

/-! ## Rows of the opcode table -/

/-- The `mask` column of spec/opcode_table.json, the row being the one of the block's width. -/
def rowMask (cfg : Config) : Opcode → CmdWord
  | .tick | .now | .syncClear => 0xFFFFFFFFFFFFFFFFFF#72
  | .encode => if cfg.wide then 0xFFFFFF0000000000F0#72 else 0xFFFFFF00FFFF0000F0#72
  | .emit => if cfg.wide then 0xFFFFFFFF00000000F0#72 else 0xFFFFFFFFFFFF0000F0#72
  | .decode => if cfg.wide then 0xFF0000000000000000#72 else 0xFF000000000000FFFF#72
  | .syncIn => 0xFFFFFFFFFFFFFFFF00#72

/-- The `match` column of spec/opcode_table.json. -/
def rowMatch : Opcode → CmdWord
  | .tick => 0x010000000000000000#72
  | .now => 0x020000000000000000#72
  | .encode => 0x100000000000000000#72
  | .emit => 0x110000000000000000#72
  | .decode => 0x200000000000000000#72
  | .syncIn => 0x210000000000000000#72
  | .syncClear => 0x220000000000000000#72

/-- A row's mask covers the opcode and the reserved payload bits. -/
theorem rowMask_eq (cfg : Config) (o : Opcode) : rowMask cfg o = 0xFF#8 ++ reservedBits cfg o := by
  cases o with
  | tick | now | syncIn | syncClear =>
    simp only [rowMask, reservedBits]
    decide
  | encode | emit | decode =>
    simp only [rowMask, reservedBits]
    split <;> decide

/-- A row's match is its opcode above a zero payload. -/
theorem rowMatch_eq (o : Opcode) : rowMatch o = o.toByte ++ 0#64 := by
  cases o <;> rfl

theorem and_rowMask_eq_rowMatch_iff (cfg : Config) (o : Opcode) (w : CmdWord) :
    w &&& rowMask cfg o = rowMatch o ↔
      opcodeField w = o.toByte ∧ payloadField w &&& reservedBits cfg o = 0#64 := by
  have hand : w &&& rowMask cfg o = opcodeField w ++ (payloadField w &&& reservedBits cfg o) := by
    have hop : opcodeField w &&& 0xFF#8 = opcodeField w := BitVec.and_allOnes
    conv_lhs => rw [rowMask_eq, ← opcode_append_payload w, BitVec.and_append, hop]
  rw [hand, rowMatch_eq]
  constructor
  · intro h
    exact ⟨by simpa using congrArg opcodeField h, by simpa using congrArg payloadField h⟩
  · rintro ⟨hop, hpl⟩
    rw [hop, hpl]

/-- A port reads a word as an instruction exactly where the word meets the row of the instruction's command and holds its
operands. -/
theorem decode_eq_instr_iff (cfg : Config) (port : Port) (w : CmdWord) (i : Instr) :
    decode cfg port w = .instr i ↔
      port = i.unit ∧ w &&& rowMask cfg i.opcode = rowMatch i.opcode ∧
        operands cfg (payloadField w) i.opcode = i := by
  rw [and_rowMask_eq_rowMatch_iff]
  constructor
  · intro h
    obtain ⟨o, ho, rfl, hr, rfl⟩ := exists_operands_of_decode h
    rw [Instr.unit, operands_opcode]
    exact ⟨rfl, ⟨ho.symm, hr⟩, rfl⟩
  · rintro ⟨rfl, ⟨hop, hr⟩, hi⟩
    rw [← opcode_append_payload w, hop, Instr.unit, decode_assigned, if_pos hr, hi]

/-- Settles O44: at each row, what `decode_eq_instr_iff` asks of the operands is met exactly in a block of the row's
width. -/
theorem decodeMatchesOpcodeTable : Obligations.DecodeMatchesOpcodeTable := by
  intro cfg port w
  simp only [decode_eq_instr_iff]
  cases hw : cfg.wide <;> simp [Instr.unit, Instr.opcode, Opcode.unit, operands, rowMask, rowMatch, hw]

/-- Settles O45: the words are literals, so the decoder evaluates. -/
theorem spelledWordsDecode : Obligations.SpelledWordsDecode := by
  refine ⟨?_, ?_, ?_, ?_, ?_, ?_, ?_, ?_⟩ <;> decide

/-! ## Refusals -/

/-- R81, R84: a word that a port shuts out is answered ILLEGAL with its cause. -/
theorem step_of_illegal {s : State} {port : Port} {w : CmdWord} {rest : List Input} {why : IllegalCause}
    (hw : s.cfg.wf = true) (hi : s.input = .command port w :: rest) (hd : decode s.cfg port w = .illegal why) :
    step s = .next { s with
      input := rest, responses := s.responses ++ [⟨port, { status := .illegal, info := why.info }⟩] } := by
  rw [step_of_input_cons hw hi]
  simp only [deliver, State.withInput_cfg, hd]
  rfl

/-- Settles O38: the opcode lists hold every opcode of their port, so the decoder finds none there. -/
theorem unassignedOpcodeIsIllegal : Obligations.UnassignedOpcodeIsIllegal := by
  intro s port w rest hw hi hop
  refine step_of_illegal (why := .notAssigned) hw hi ?_
  rcases decode_cases s.cfg port w with ⟨hd, -⟩ | ⟨o, ho, rfl, -⟩
  · exact hd
  · refine absurd ?_ hop
    change opcodeField w ∈ _
    rw [← ho]
    cases o <;> decide

/-- Settles O39: the list's seven entries are the port, opcode byte and reserved bits of the seven commands. -/
theorem reservedBitIsIllegal : Obligations.ReservedBitIsIllegal := by
  intro s port w rest op mask hw hi hmem hop hr
  obtain ⟨o, rfl, rfl, rfl⟩ : ∃ o : Opcode, port = o.unit ∧ op = o.toByte ∧ mask = reservedBits s.cfg o := by
    simp only [List.mem_cons, List.not_mem_nil, or_false, Prod.mk.injEq] at hmem
    rcases hmem with ⟨rfl, rfl, rfl⟩ | ⟨rfl, rfl, rfl⟩ | ⟨rfl, rfl, rfl⟩ | ⟨rfl, rfl, rfl⟩ | ⟨rfl, rfl, rfl⟩ |
      ⟨rfl, rfl, rfl⟩ | ⟨rfl, rfl, rfl⟩
    · exact ⟨.tick, rfl, rfl, rfl⟩
    · exact ⟨.now, rfl, rfl, rfl⟩
    · exact ⟨.encode, rfl, rfl, rfl⟩
    · exact ⟨.emit, rfl, rfl, rfl⟩
    · exact ⟨.decode, rfl, rfl, rfl⟩
    · exact ⟨.syncIn, rfl, rfl, rfl⟩
    · exact ⟨.syncClear, rfl, rfl, rfl⟩
  refine step_of_illegal (why := .reservedBitSet) hw hi ?_
  have hop' : opcodeField w = o.toByte := hop
  rw [← opcode_append_payload w, hop', decode_assigned]
  exact if_neg hr

end Sys2Proof.Machine
end

section
/-! Proofs of the statements about a row in a block of the other width (spec/30_encoding.md R82 and R84;
notes/assumptions/6.md). -/

namespace Sys2Proof.Machine

/-- Settles O13: a timestamp of 2^16 or more fails the narrow range check, and both command bodies then only refuse. -/
theorem narrowTimestampOutOfRangeIsIllegal : Obligations.NarrowTimestampOutOfRangeIsIllegal := by
  intro s c t p hw ht
  have hfit : ¬ timestampFits s.cfg t = true := by
    rw [timestampFits_iff, Config.tw_narrow hw]
    omega
  constructor
  · exact congrArg _ ((s.encodeFrame_eq c t p).trans (congrArg _ (if_neg hfit)))
  · exact congrArg _ ((s.emitFrame_eq t p).trans (if_neg hfit))

/-- The check passes exactly on a payload that a record of the block can fill. -/
theorem recordFits_iff (cfg : Config) (pl : Payload) :
    recordFits cfg pl = true ↔ cfg.wide = true ∨ pl.toNat % 2 ^ 16 = 0 := by
  rw [recordFits, Bool.or_eq_true, beq_iff_eq, ← BitVec.toNat_inj, toNat_extractLsb'_div, BitVec.toNat_zero, pow_zero,
    Nat.div_one]

theorem toNat_pack_eight_mod (r0 r1 r2 r3 r4 r5 r6 r7 : Byte) :
    (pack [r0, r1, r2, r3, r4, r5, r6, r7]).toNat % 2 ^ 16 = r6.toNat * 2 ^ 8 + r7.toNat := by
  have hp := toNat_pack [r0, r1, r2, r3, r4, r5, r6, r7]
  simp only [recordByte, List.getElem?_cons_zero, List.getElem?_cons_succ, Option.getD_some] at hp
  omega

/-- Settles O14: a row hands its operand, extended by zeros, to the body that both rows share; a byte beyond offset 5 sets
one of the bits [15:0] that a narrow block requires to be clear. -/
theorem otherVariantWordsRunAsOwnRow : Obligations.OtherVariantWordsRunAsOwnRow := by
  intro s c t p r0 r1 r2 r3 r4 r5 r6 r7
  refine ⟨fun _ => ⟨rfl, rfl, rfl⟩, fun hw => ⟨rfl, rfl, rfl, fun hr => ?_⟩⟩
  have hfit : ¬ recordFits s.cfg (pack [r0, r1, r2, r3, r4, r5, r6, r7]) = true := by
    rw [recordFits_iff, toNat_pack_eight_mod]
    simp only [ne_eq, ← BitVec.toNat_inj, BitVec.toNat_zero] at hr
    simp only [hw, Bool.false_eq_true, false_or]
    omega
  exact congrArg _ ((s.decodeFrame_eq _).trans (congrArg _ (if_neg hfit)))

end Sys2Proof.Machine
end

section
/-! Proofs of the statements about the assembler and its pseudo-instructions (spec/30_encoding.md R86 and R87). -/

namespace Sys2Proof.Machine

/-! ## Words as numbers -/

/-- The number that a command word stands for: its payload below its opcode (R80). -/
theorem toNat_encode (i : Instr) : (encode i).toNat = i.opcode.toByte.toNat * 2 ^ 64 + i.payload.toNat := by
  rw [encode, toNat_append_mul]

/-- A wide record fills the payload: its bytes are the payload's base-256 digits. -/
theorem toNat_pack_of_length_eight : ∀ {r : List Byte}, r.length = 8 → (pack r).toNat = unbe r
  | [_, _, _, _, _, _, _, _], _ => by
    rw [toNat_pack]
    simp only [recordByte, unbe_cons, unbe_nil, List.getElem?_cons_zero, List.getElem?_cons_succ, Option.getD_some,
      List.length_cons, List.length_nil]
    ring

/-- A narrow record stands above 16 zero bits. -/
theorem toNat_pack_of_length_six : ∀ {r : List Byte}, r.length = 6 → (pack r).toNat = unbe r * 65536
  | [_, _, _, _, _, _], _ => by
    rw [toNat_pack]
    simp only [recordByte, unbe_cons, unbe_nil, List.getElem?_cons_zero, List.getElem?_cons_succ, List.getElem?_nil,
      Option.getD_some, Option.getD_none, List.length_cons, List.length_nil, BitVec.toNat_zero]
    ring

/-- Bytes given as numbers that fit are the digits of the same number. -/
theorem unbe_map_ofNat {r : List Nat} (h : ∀ x ∈ r, x ≤ 255) :
    unbe (r.map (BitVec.ofNat 8)) = r.foldl (fun acc x => acc * 256 + x) 0 := by
  rw [unbe, List.foldl_map]
  refine List.foldl_ext _ _ 0 fun acc x hx => ?_
  have := h x hx
  rw [BitVec.toNat_ofNat]
  omega

/-! ## What the assembler accepts (R86) -/

theorem asmBytes_eq_some_iff {bs : List Nat} {r : List Byte} :
    asmBytes bs = some r ↔ (∀ b ∈ bs, b ≤ 255) ∧ bs.map (BitVec.ofNat 8) = r := by
  simp [asmBytes]

theorem asmBytes_eq_none_iff {bs : List Nat} : asmBytes bs = none ↔ ∃ b ∈ bs, 255 < b := by
  simp [asmBytes]

theorem asmEncode_eq_none_iff {cfg : Config} {c t p : Nat} :
    asmEncode cfg c t p = none ↔ 255 < c ∨ 2 ^ cfg.tw ≤ t ∨ 15 < p := by
  rw [asmEncode, ite_eq_right_iff]
  simp only [reduceCtorEq, imp_false]
  omega

theorem asmEncode_eq_some_iff {cfg : Config} {c t p : Nat} {i : Instr} :
    asmEncode cfg c t p = some i ↔ (c ≤ 255 ∧ t < 2 ^ cfg.tw ∧ p ≤ 15) ∧
      i = if cfg.wide then .encodeWide (BitVec.ofNat 8 c) (BitVec.ofNat 32 t) (BitVec.ofNat 4 p)
        else .encodeNarrow (BitVec.ofNat 8 c) (BitVec.ofNat 16 t) (BitVec.ofNat 4 p) := by
  rw [asmEncode, Option.ite_none_right_eq_some, Option.some_inj, eq_comm]

theorem asmEmit_eq_none_iff {cfg : Config} {t p : Nat} : asmEmit cfg t p = none ↔ 2 ^ cfg.tw ≤ t ∨ 15 < p := by
  rw [asmEmit, ite_eq_right_iff]
  simp only [reduceCtorEq, imp_false]
  omega

theorem asmEmit_eq_some_iff {cfg : Config} {t p : Nat} {i : Instr} :
    asmEmit cfg t p = some i ↔ (t < 2 ^ cfg.tw ∧ p ≤ 15) ∧
      i = if cfg.wide then .emitWide (BitVec.ofNat 32 t) (BitVec.ofNat 4 p)
        else .emitNarrow (BitVec.ofNat 16 t) (BitVec.ofNat 4 p) := by
  rw [asmEmit, Option.ite_none_right_eq_some, Option.some_inj, eq_comm]

theorem asmDecode_eq_some_iff {cfg : Config} {r : List Nat} {i : Instr} :
    asmDecode cfg r = some i ↔ r.length = cfg.rs ∧ (∀ x ∈ r, x ≤ 255) ∧
      i = if cfg.wide then .decodeWide (r.map (BitVec.ofNat 8)) else .decodeNarrow (r.map (BitVec.ofNat 8)) := by
  rw [asmDecode, Option.ite_none_right_eq_some, Option.map_eq_some_iff]
  refine and_congr_right' ⟨?_, ?_⟩
  · rintro ⟨bs, hbs, rfl⟩
    obtain ⟨hle, rfl⟩ := asmBytes_eq_some_iff.1 hbs
    exact ⟨hle, rfl⟩
  · rintro ⟨hle, rfl⟩
    exact ⟨_, asmBytes_eq_some_iff.2 ⟨hle, rfl⟩, rfl⟩

theorem asmDecode_eq_none_iff {cfg : Config} {r : List Nat} :
    asmDecode cfg r = none ↔ r.length ≠ cfg.rs ∨ ∃ x ∈ r, 255 < x := by
  unfold asmDecode
  split <;> simp [*, asmBytes_eq_none_iff]

/-! ## What the assembler writes (R86) -/

theorem toNat_encode_of_asmEncode {cfg : Config} {c t p : Nat} {i : Instr} (h : asmEncode cfg c t p = some i) :
    (encode i).toNat = 0x10 * 2 ^ 64 + c * 2 ^ 40 + t * 2 ^ 8 + p := by
  obtain ⟨⟨hc, ht, hp⟩, rfl⟩ := asmEncode_eq_some_iff.1 h
  rw [toNat_encode]
  cases hw : cfg.wide
  · rw [Config.tw_narrow hw] at ht
    simp only [Bool.false_eq_true, if_false, toNat_payload_encodeNarrow, Instr.opcode, Opcode.toByte,
      BitVec.toNat_ofNat]
    omega
  · rw [Config.tw_wide hw] at ht
    simp only [if_true, toNat_payload_encodeWide, Instr.opcode, Opcode.toByte, BitVec.toNat_ofNat]
    omega

theorem toNat_encode_of_asmEmit {cfg : Config} {t p : Nat} {i : Instr} (h : asmEmit cfg t p = some i) :
    (encode i).toNat = 0x11 * 2 ^ 64 + t * 2 ^ 8 + p := by
  obtain ⟨⟨ht, hp⟩, rfl⟩ := asmEmit_eq_some_iff.1 h
  rw [toNat_encode]
  cases hw : cfg.wide
  · rw [Config.tw_narrow hw] at ht
    simp only [Bool.false_eq_true, if_false, toNat_payload_emitNarrow, Instr.opcode, Opcode.toByte, BitVec.toNat_ofNat]
    omega
  · rw [Config.tw_wide hw] at ht
    simp only [if_true, toNat_payload_emitWide, Instr.opcode, Opcode.toByte, BitVec.toNat_ofNat]
    omega

theorem toNat_encode_syncIn_ofNat {b : Nat} (h : b ≤ 255) :
    (encode (.syncIn (BitVec.ofNat 8 b))).toNat = 0x21 * 2 ^ 64 + b := by
  rw [toNat_encode, toNat_payload_syncIn, BitVec.toNat_ofNat, Nat.mod_eq_of_lt (by omega)]
  rfl

theorem toNat_encode_of_asmDecode {cfg : Config} {r : List Nat} {i : Instr} (h : asmDecode cfg r = some i) :
    (encode i).toNat =
      0x20 * 2 ^ 64 + r.foldl (fun acc x => acc * 256 + x) 0 * (if cfg.wide then 1 else 65536) := by
  obtain ⟨hlen, hle, rfl⟩ := asmDecode_eq_some_iff.1 h
  rw [toNat_encode, ← unbe_map_ofNat hle]
  cases hw : cfg.wide
  · have hl : (r.map (BitVec.ofNat 8)).length = 6 := by rw [List.length_map, hlen, Config.rs_narrow hw]
    simp [Instr.payload, Instr.opcode, Opcode.toByte, toNat_pack_of_length_six hl]
  · have hl : (r.map (BitVec.ofNat 8)).length = 8 := by rw [List.length_map, hlen, Config.rs_wide hw]
    simp [Instr.payload, Instr.opcode, Opcode.toByte, toNat_pack_of_length_eight hl]

/-- A line that stands for one instruction gives that instruction alone. -/
theorem exists_eq_singleton_of_map {x : Option Instr} {is : List Instr} {P : Instr → Prop} (h : x.map ([·]) = some is)
    (hP : ∀ {i}, x = some i → P i) : ∃ i, is = [i] ∧ P i := by
  obtain ⟨i, hi, rfl⟩ := Option.map_eq_some_iff.1 h
  exact ⟨i, rfl, hP hi⟩

/-! ## Pseudo-instructions (R87) -/

theorem assemble_syncIn (cfg : Config) (b : Nat) : assemble cfg (.syncIn b) = assemble cfg (.syncFeed [b]) := rfl

theorem assemble_syncFeed_eq_none_iff {cfg : Config} {bs : List Nat} :
    assemble cfg (.syncFeed bs) = none ↔ ∃ b ∈ bs, 255 < b := by
  rw [assemble, Option.map_eq_none_iff, asmBytes_eq_none_iff]

theorem assemble_syncFeed_eq_some_iff {cfg : Config} {bs : List Nat} {is : List Instr} :
    assemble cfg (.syncFeed bs) = some is ↔
      (∀ b ∈ bs, b ≤ 255) ∧ (bs.map (BitVec.ofNat 8)).map .syncIn = is := by
  simp [assemble, Option.map_eq_some_iff, asmBytes_eq_some_iff]

theorem assemble_edge_eq_some_iff {cfg : Config} {t0 p0 t1 p1 : Nat} {is : List Instr} :
    assemble cfg (.edge t0 p0 t1 p1) = some is ↔
      ∃ i j, asmEmit cfg t0 p0 = some i ∧ asmEmit cfg t1 p1 = some j ∧ is = [i, j] := by
  simp only [assemble]
  cases asmEmit cfg t0 p0 <;> cases asmEmit cfg t1 p1 <;> simp [eq_comm]

/-- Settles O48: `assemble`'s expansion of each of the three, with the word of each fed byte. -/
theorem pseudoInstructionsExpand : Obligations.PseudoInstructionsExpand := by
  intro cfg n t0 p0 t1 p1 bs
  refine ⟨fun is => ?_, ⟨_, rfl, List.length_replicate, fun i => List.eq_of_mem_replicate⟩,
    assemble_syncFeed_eq_none_iff, fun is h => ?_⟩
  · have hemit (t p : Nat) (i : Instr) : assemble cfg (.emit t p) = some [i] ↔ asmEmit cfg t p = some i := by
      simp [assemble]
    simp only [hemit, assemble_edge_eq_some_iff]
  · obtain ⟨hle, rfl⟩ := assemble_syncFeed_eq_some_iff.1 h
    rw [List.map_map, List.map_map]
    exact List.map_congr_left fun b hb => toNat_encode_syncIn_ofNat (hle b hb)

/-- Settles O46: what each line's assembler refuses and writes; SYNC_IN is a feed of one byte. -/
theorem assembledWordsHoldTheirOperands : Obligations.AssembledWordsHoldTheirOperands := by
  intro cfg c t p b
  refine ⟨Option.map_eq_none_iff.trans asmEncode_eq_none_iff,
    fun is h => exists_eq_singleton_of_map h toNat_encode_of_asmEncode,
    Option.map_eq_none_iff.trans asmEmit_eq_none_iff,
    fun is h => exists_eq_singleton_of_map h toNat_encode_of_asmEmit, ?_, fun is h => ?_,
    fun r => Option.map_eq_none_iff.trans asmDecode_eq_none_iff,
    fun r is h => exists_eq_singleton_of_map h toNat_encode_of_asmDecode⟩
  · simp [assemble_syncIn, assemble_syncFeed_eq_none_iff]
  · rw [assemble_syncIn] at h
    obtain ⟨hle, rfl⟩ := assemble_syncFeed_eq_some_iff.1 h
    exact ⟨_, rfl, toNat_encode_syncIn_ofNat (hle b (List.mem_singleton_self b))⟩

/-! ## Well-formedness -/

theorem wf_of_asmEncode {cfg : Config} {c t p : Nat} {i : Instr} (h : asmEncode cfg c t p = some i) :
    i.wf cfg = true := by
  obtain ⟨-, rfl⟩ := asmEncode_eq_some_iff.1 h
  cases hw : cfg.wide <;> simp [Instr.wf, hw]

theorem wf_of_asmEmit {cfg : Config} {t p : Nat} {i : Instr} (h : asmEmit cfg t p = some i) : i.wf cfg = true := by
  obtain ⟨-, rfl⟩ := asmEmit_eq_some_iff.1 h
  cases hw : cfg.wide <;> simp [Instr.wf, hw]

theorem wf_of_asmDecode {cfg : Config} {r : List Nat} {i : Instr} (h : asmDecode cfg r = some i) :
    i.wf cfg = true := by
  obtain ⟨hlen, -, rfl⟩ := asmDecode_eq_some_iff.1 h
  cases hw : cfg.wide
  · simp [Instr.wf, hw, hlen, Config.rs_narrow hw]
  · simp [Instr.wf, hw, hlen, Config.rs_wide hw]

theorem wf_of_assemble_syncFeed {cfg : Config} {bs : List Nat} {is : List Instr}
    (h : assemble cfg (.syncFeed bs) = some is) : ∀ i ∈ is, i.wf cfg = true := by
  obtain ⟨-, rfl⟩ := assemble_syncFeed_eq_some_iff.1 h
  exact List.forall_mem_map.2 fun _ _ => rfl

/-- Settles O47, line by line: ENCODE, EMIT and DECODE give the row of the block's width, a DECODE only of `RS` bytes;
the other instructions are well-formed in every block. -/
theorem assembledInstructionsAreWellFormed : Obligations.AssembledInstructionsAreWellFormed := by
  intro cfg line is h
  cases line with
  | tick | now | syncClear => cases h; exact List.forall_mem_singleton.2 rfl
  | encode c t p =>
    obtain ⟨i, rfl, hi⟩ := exists_eq_singleton_of_map h wf_of_asmEncode
    exact List.forall_mem_singleton.2 hi
  | emit t p =>
    obtain ⟨i, rfl, hi⟩ := exists_eq_singleton_of_map h wf_of_asmEmit
    exact List.forall_mem_singleton.2 hi
  | decode r =>
    obtain ⟨i, rfl, hi⟩ := exists_eq_singleton_of_map h wf_of_asmDecode
    exact List.forall_mem_singleton.2 hi
  | syncIn b => exact wf_of_assemble_syncFeed h
  | syncFeed bs => exact wf_of_assemble_syncFeed h
  | ticks n =>
    cases h
    intro i hi
    rw [List.eq_of_mem_replicate hi]
    rfl
  | edge t0 p0 t1 p1 =>
    obtain ⟨i, j, hi, hj, rfl⟩ := assemble_edge_eq_some_iff.1 h
    simp [wf_of_asmEmit hi, wf_of_asmEmit hj]

end Sys2Proof.Machine
end

section
/-! Proofs of the statements about the Clock (spec/40_clock.md R100 to R105): the value that NOW returns is a number of `TW`
bits that each TICK advances by one modulo `2^TW`. -/

namespace Sys2Proof.Machine

/-! ## The tick as a number modulo `2^TW` -/

theorem Dev.now_lt (cfg : Config) (d : Dev) : (d.now cfg).toNat < 2 ^ cfg.tw := by
  have hlo := d.lo.isLt
  have hovf := d.ovf.isLt
  rw [Dev.now_toNat]
  cases hw : cfg.wide
  · simpa [Config.tw_narrow hw] using hlo
  · simp only [Config.tw_wide hw, if_true]
    omega

/-- R100: a TICK adds one to the tick, modulo `2^TW`; in a wide block the carry out of `LO` goes into `OVF`. -/
theorem Dev.now_tick_toNat (cfg : Config) (d : Dev) :
    ((d.tick cfg).now cfg).toNat = ((d.now cfg).toNat + 1) % 2 ^ cfg.tw := by
  have hlo := d.lo.isLt
  have hovf := d.ovf.isLt
  simp only [Dev.now_toNat, Dev.tick_ovf_toNat, Dev.tick_lo, BitVec.toNat_add, BitVec.toNat_ofNat]
  cases hw : cfg.wide
  · simp [Config.tw_narrow hw]
  · simp only [Config.tw_wide hw, if_true, true_and]
    split <;> omega

/-- R103: `k` TICKs add `k` to the tick, modulo `2^TW`. -/
theorem Dev.now_iterate_tick_toNat (cfg : Config) (k : Nat) (d : Dev) :
    (((Dev.tick cfg)^[k] d).now cfg).toNat = ((d.now cfg).toNat + k) % 2 ^ cfg.tw := by
  induction k with
  | zero => exact (Nat.mod_eq_of_lt (d.now_lt cfg)).symm
  | succ k ih => rw [Function.iterate_succ_apply', Dev.now_tick_toNat, ih, Nat.mod_add_mod, Nat.add_assoc]

/-- R101: the value of NOW's response, the tick extended by zeros. -/
theorem Dev.now_setWidth (cfg : Config) (d : Dev) :
    (d.now cfg).setWidth 64 =
      BitVec.ofNat 64 (if cfg.wide then d.ovf.toNat * 65536 + d.lo.toNat else d.lo.toNat) := by
  rw [← Dev.now_toNat, BitVec.ofNat_toNat]

/-- R102: in a wide block, the two halves that NOW returns after a TICK are those of one state. -/
theorem Dev.now_tick_setWidth_wide {cfg : Config} (hw : cfg.wide = true) (d : Dev) :
    ((d.tick cfg).now cfg).setWidth 64 =
      BitVec.ofNat 64 (if d.lo.toNat = 65535 then (d.ovf.toNat + 1) % 65536 * 65536
        else d.ovf.toNat * 65536 + (d.lo.toNat + 1)) := by
  have hlo := d.lo.isLt
  have hovf := d.ovf.isLt
  rw [← BitVec.ofNat_toNat, Dev.now_tick_toNat, Dev.now_toNat, if_pos hw, Config.tw_wide hw]
  congr 1
  split <;> omega

/-! ## `tick_sub` -/

/-- R103: the mask of a narrow block takes the 32-bit difference modulo 2^16, which divides 2^32. -/
theorem toNat_tickSub (cfg : Config) (b a : BitVec 32) :
    ((tickSub cfg b a).toNat : Int) = ((b.toNat : Int) - (a.toNat : Int)) % (2 ^ cfg.tw : Nat) := by
  have ha := a.isLt
  have hsub : (b - a).toNat = (2 ^ 32 - a.toNat + b.toNat) % 2 ^ 32 := BitVec.toNat_sub b a
  cases hw : cfg.wide
  · have hmask : (tickSub cfg b a).toNat = (b - a).toNat % 2 ^ 16 := by
      simpa [tickSub, hw] using Nat.and_two_pow_sub_one_eq_mod (b - a).toNat 16
    rw [hmask, hsub, Config.tw_narrow hw]
    omega
  · rw [tickSub, if_pos hw, hsub, Config.tw_wide hw]
    omega

/-- `tick_sub` recovers what was added modulo `2^TW`. -/
theorem toNat_tickSub_of_add {cfg : Config} {b a : BitVec 32} {k : Nat}
    (h : b.toNat = (a.toNat + k) % 2 ^ cfg.tw) : (tickSub cfg b a).toNat = k % 2 ^ cfg.tw := by
  have hint : ((tickSub cfg b a).toNat : Int) = (k % 2 ^ cfg.tw : Nat) := by
    rw [toNat_tickSub, h, Int.natCast_mod, Int.emod_sub_emod, Nat.cast_add, add_sub_cancel_left, Int.natCast_mod]
  exact Int.ofNat_inj.1 hint

/-! ## Commands at their port, and runs of a program -/

/-- R80, R84: a word with an assigned opcode at its own port runs where its reserved bits are clear, and is ILLEGAL(2)
otherwise. -/
theorem deliver_assigned (o : Opcode) (pl : Payload) (s : State) :
    deliver (.command o.unit (o.toByte ++ pl)) s =
      if pl &&& reservedBits s.cfg o = 0#64 then exec (operands s.cfg pl o) s
      else .next (s.raiseIllegal o.unit .reservedBitSet) := by
  by_cases hr : pl &&& reservedBits s.cfg o = 0#64 <;> simp [deliver, decode_assigned, hr]

/-- A command without operands reserves its whole payload. -/
theorem deliver_of_no_operands {o : Opcode} {s : State} (h : reservedBits s.cfg o = BitVec.allOnes 64) (pl : Payload) :
    deliver (.command o.unit (o.toByte ++ pl)) s =
      if pl = 0#64 then exec (operands s.cfg pl o) s else .next (s.raiseIllegal o.unit .reservedBitSet) := by
  rw [deliver_assigned, h, BitVec.and_allOnes]

/-- R80, R86: an instruction of the block, arriving at its port, runs. -/
theorem deliver_arrival {i : Instr} {s : State} (h : i.wf s.cfg = true) : deliver (arrival i) s = exec i s :=
  deliver_command_of_decode (decodeOfEncode s.cfg i h)

/-- The first instruction of a program, then the run of the others. -/
theorem runInputs_program_cons {i : Instr} {s t : State} (hw : s.cfg.wf = true) (hi : i.wf s.cfg = true)
    (h : exec i s = .next t) (is : List Instr) : runInputs (program (i :: is)) s = runInputs (program is) t :=
  runInputs_cons hw ((deliver_arrival hi).trans h) (program is)

theorem runInputs_program_singleton {i : Instr} {s t : State} (hw : s.cfg.wf = true) (hi : i.wf s.cfg = true)
    (h : exec i s = .next t) : runInputs (program [i]) s = .next (t.withInput []) :=
  runInputs_program_cons hw hi h []

/-- R100: TICK, as what it does to the device registers. -/
theorem exec_tick (s : State) : exec .tick s = .next (s.applyDev ⟨s.dev.tick s.cfg, {}⟩) := exec_dev rfl s

/-- The block after `k` TICKs. -/
def State.afterTicks (k : Nat) (s : State) : State :=
  { s with dev := (Dev.tick s.cfg)^[k] s.dev, responses := s.responses ++ List.replicate k ⟨.dev, {}⟩ }

theorem State.afterTicks_zero (s : State) : s.afterTicks 0 = s := by simp [afterTicks]

theorem State.afterTicks_succ (k : Nat) (s : State) :
    (s.applyDev ⟨s.dev.tick s.cfg, {}⟩).afterTicks k = s.afterTicks (k + 1) := by
  simp [afterTicks, applyDev, respond, List.replicate_succ]

theorem runInputs_program_ticks {s : State} (hw : s.cfg.wf = true) (k : Nat) (is : List Instr) :
    runInputs (program (List.replicate k .tick ++ is)) s = runInputs (program is) (s.afterTicks k) := by
  induction k generalizing s with
  | zero => rw [State.afterTicks_zero]; rfl
  | succ k ih =>
    rw [← State.afterTicks_succ, ← ih (s := s.applyDev _) hw]
    exact runInputs_program_cons hw rfl (exec_tick s) _

/-- After `k` TICKs, a NOW answers the tick that they have led to. -/
theorem runInputs_program_ticks_now {s : State} (hw : s.cfg.wf = true) (k : Nat) :
    runInputs (program (List.replicate k .tick ++ [.now])) s =
      .next (((s.afterTicks k).respond .dev
        { value := (((Dev.tick s.cfg)^[k] s.dev).now s.cfg).setWidth 64 }).withInput []) :=
  (runInputs_program_ticks hw k [.now]).trans (runInputs_program_singleton hw rfl (exec_now (s.afterTicks k)))

theorem newReplies_of_append {s t : State} {rs : List Reply} (h : t.responses = s.responses ++ rs) :
    newReplies s t = rs := by
  rw [newReplies, h, List.drop_left]

/-! ## The statements -/

/-- Settles O1: the counters as numbers, and at the port TICK's payload is reserved as a whole. -/
theorem tickAdvancesCounters : Obligations.TickAdvancesCounters := by
  intro s
  refine ⟨_, exec_tick s, ?_, s.dev.tick_ovf_toNat s.cfg, rfl, rfl, ?_⟩
  · exact BitVec.toNat_add s.dev.lo 1#16
  · exact deliver_of_no_operands (o := .tick) rfl

/-- Settles O2: the tick before a TICK is below `2^TW`, so adding one modulo `2^TW` either stays below or wraps to 0. -/
theorem tickIsMonotoneUntilWrap : Obligations.TickIsMonotoneUntilWrap := by
  intro s
  refine ⟨_, exec_tick s, ?_⟩
  have hlt := s.dev.now_lt s.cfg
  have htick := s.dev.now_tick_toNat s.cfg
  simp only [State.applyDev_dev, State.applyDev_cfg]
  rcases Nat.lt_or_eq_of_le (Nat.succ_le_of_lt hlt) with h | h
  · rw [htick, Nat.mod_eq_of_lt h]
    exact .inl ⟨rfl, h⟩
  · rw [htick, ← h, Nat.mod_self]
    exact .inr ⟨rfl, rfl⟩

/-- Settles O3: NOW only answers, with the tick as a number, and at the port its payload is reserved as a whole. -/
theorem nowReturnsTick : Obligations.NowReturnsTick := by
  intro s
  rw [← Dev.now_setWidth]
  exact ⟨exec_now s, deliver_of_no_operands (o := .now) rfl⟩

/-- Settles O4: each run is taken one command at a time, so the NOW reads both halves of one state. -/
theorem wideNowIsNeverTorn : Obligations.WideNowIsNeverTorn := by
  intro s hw hwide
  have hnow := (runInputs_program_cons hw rfl (exec_now s) [.tick]).trans
    (runInputs_program_singleton hw rfl (exec_tick _))
  have htick := (runInputs_program_cons hw rfl (exec_tick s) [.now]).trans
    (runInputs_program_singleton hw rfl (exec_now _))
  refine ⟨_, _, hnow, htick, newReplies_of_append ?_, newReplies_of_append ?_⟩
  · simp [Dev.now_setWidth, hwide]
  · simp [Dev.now_tick_setWidth_wide hwide]

/-- Settles O5: by induction over the TICKs the second NOW returns the first one's value plus `k` modulo `2^TW`, and
`tick_sub` recovers `k`. -/
theorem tickSubIsElapsedTicks : Obligations.TickSubIsElapsedTicks := by
  refine ⟨toNat_tickSub, fun s k hw => ?_⟩
  have hticks := runInputs_program_ticks_now (s := s.respond .dev { value := (s.dev.now s.cfg).setWidth 64 }) hw k
  have hrun := (runInputs_program_cons hw rfl (exec_now s) (List.replicate k .tick ++ [.now])).trans hticks
  refine ⟨_, (s.dev.now s.cfg).setWidth 64, (((Dev.tick s.cfg)^[k] s.dev).now s.cfg).setWidth 64, hrun,
    newReplies_of_append ?_, ?_⟩
  · simp [State.afterTicks]
  · simp only [BitVec.setWidth_setWidth_of_le, BitVec.setWidth_eq, Nat.reduceLeDiff]
    exact toNat_tickSub_of_add (s.dev.now_iterate_tick_toNat s.cfg k)

end Sys2Proof.Machine
end

section
/-! Proofs of the statements about ENCODE and EMIT (spec/41_codec.md R120, R121): the packed frame is its fields side by
side, and a timestamp below `2^TW` is in range in both widths. -/

namespace Sys2Proof.Machine

/-! ## Frames as words (R70, R71, R88) -/

@[simp] theorem recordByte_nil (i : Nat) : recordByte [] i = 0#8 := rfl

@[simp] theorem recordByte_cons_zero (b : Byte) (r : List Byte) : recordByte (b :: r) 0 = b := rfl

@[simp] theorem recordByte_cons_succ (b : Byte) (r : List Byte) (i : Nat) :
    recordByte (b :: r) (i + 1) = recordByte r i := rfl

/-- R71: a packed wide frame is its fields side by side. -/
theorem pack_enc_wide {cfg : Config} (hw : cfg.wide = true) (c : Byte) (t : BitVec 32) (p : BitVec 4) :
    pack (enc cfg c t p) = cfg.startMarker ++ c ++ t ++ 0#4 ++ p ++ cfg.endMarker := by
  apply BitVec.eq_of_toNat_eq
  rw [toNat_pack, enc_wide hw]
  simp only [recordByte_cons_zero, recordByte_cons_succ, toNat_append_mul, toNat_extractLsb'_div, BitVec.toNat_setWidth,
    BitVec.toNat_zero]
  omega

/-- R70: a packed narrow frame is its fields side by side, above 16 zero bits. -/
theorem pack_enc_narrow {cfg : Config} (hw : cfg.wide = false) (c : Byte) (t : BitVec 16) (p : BitVec 4) :
    pack (enc cfg c (t.setWidth 32) p) = cfg.startMarker ++ c ++ t ++ 0#4 ++ p ++ cfg.endMarker ++ 0#16 := by
  apply BitVec.eq_of_toNat_eq
  rw [toNat_pack, enc_narrow hw]
  simp only [recordByte_cons_zero, recordByte_cons_succ, recordByte_nil, toNat_append_mul, toNat_extractLsb'_div,
    BitVec.toNat_setWidth, BitVec.toNat_zero]
  omega

/-! ## ENCODE and EMIT with a timestamp in range -/

theorem timestampFits_wide {cfg : Config} (hw : cfg.wide = true) (t : BitVec 32) : timestampFits cfg t = true := by
  simp [timestampFits, hw]

/-- R120: ENCODE only answers, with the packed frame. -/
theorem exec_encodeWide {s : State} {t : BitVec 32} (ht : timestampFits s.cfg t = true) (c : Byte) (p : BitVec 4) :
    exec (.encodeWide c t p) s = .next (s.respond .dev { value := pack (enc s.cfg c t p) }) :=
  congrArg _ ((s.encodeFrame_eq c t p).trans (congrArg _ (if_pos ht)))

/-- R121: EMIT answers with the packed frame that carries `SEQ`, which then advances. -/
theorem exec_emitWide {s : State} {t : BitVec 32} (ht : timestampFits s.cfg t = true) (p : BitVec 4) :
    exec (.emitWide t p) s = .next (s.applyDev
      ⟨{ s.dev with seq := s.dev.seq + 1#8 }, { value := pack (enc s.cfg s.dev.seq t p), counter := s.dev.seq }⟩) :=
  congrArg _ ((s.emitFrame_eq t p).trans (if_pos ht))

/-- R23: `SEQ` advances modulo 256. -/
theorem seq_add_one (n : Byte) : n + 1#8 = BitVec.ofNat 8 ((n.toNat + 1) % 256) := by
  apply BitVec.eq_of_toNat_eq
  simp

/-! ## The statements about the instructions -/

/-- Settles O9: every timestamp fits a wide block, and the packed frame is its fields side by side. -/
theorem encodeWideBuildsFrame : Obligations.EncodeWideBuildsFrame := by
  intro s c t p hw
  rw [exec_encodeWide (timestampFits_wide hw t), pack_enc_wide hw]
  rfl

/-- Settles O10: the narrow row runs as the wide one with its timestamp extended by zeros, which fits. -/
theorem encodeNarrowBuildsFrame : Obligations.EncodeNarrowBuildsFrame := by
  intro s c t p hw
  have h := exec_encodeWide (timestampFits_setWidth s.cfg t) c p
  rw [pack_enc_narrow hw] at h
  exact h

/-- Settles O11: every timestamp fits a wide block, and the packed frame is its fields side by side. -/
theorem emitWideBuildsFrameAndAdvancesSeq : Obligations.EmitWideBuildsFrameAndAdvancesSeq := by
  intro s t p hw
  rw [exec_emitWide (timestampFits_wide hw t), pack_enc_wide hw, seq_add_one]
  rfl

/-- Settles O12: the narrow row runs as the wide one with its timestamp extended by zeros, which fits. -/
theorem emitNarrowBuildsFrameAndAdvancesSeq : Obligations.EmitNarrowBuildsFrameAndAdvancesSeq := by
  intro s t p hw
  have h := exec_emitWide (timestampFits_setWidth s.cfg t) p
  rw [pack_enc_narrow hw, seq_add_one] at h
  exact h

/-! ## The statements about the commands -/

/-- Settles O6: the decoder checks the reserved bits and hands the fields to the row of the block's width. -/
theorem encodeCommandBuildsFrame : Obligations.EncodeCommandBuildsFrame := by
  intro s pl reserved c p
  have hreserved : reservedBits s.cfg .encode = reserved := rfl
  refine (deliver_assigned .encode pl s).trans ?_
  rw [hreserved]
  by_cases hr : pl &&& reserved = 0#64
  · rw [if_pos hr, if_neg (not_not.2 hr)]
    cases hw : s.cfg.wide
    · simp only [operands, hw, Bool.false_eq_true, if_false]
      exact encodeNarrowBuildsFrame s c (timestampFieldNarrow pl) p hw
    · simp only [operands, hw, if_true]
      exact encodeWideBuildsFrame s c (timestampField pl) p hw
  · rw [if_neg hr, if_pos hr]
    rfl

/-- Settles O7: the decoder checks the reserved bits and hands the fields to the row of the block's width. -/
theorem emitCommandBuildsFrameAndAdvancesSeq : Obligations.EmitCommandBuildsFrameAndAdvancesSeq := by
  intro s pl reserved p illegal
  have hreserved : reservedBits s.cfg .emit = reserved := rfl
  refine (deliver_assigned .emit pl s).trans ?_
  rw [hreserved]
  by_cases hr : pl &&& reserved = 0#64
  · have hlegal : ¬ illegal := not_not.2 hr
    rw [if_pos hr, if_neg hlegal, if_neg hlegal]
    cases hw : s.cfg.wide
    · simp only [operands, hw, Bool.false_eq_true, if_false]
      exact emitNarrowBuildsFrameAndAdvancesSeq s (timestampFieldNarrow pl) p hw
    · simp only [operands, hw, if_true]
      exact emitWideBuildsFrameAndAdvancesSeq s (timestampField pl) p hw
  · have hillegal : illegal := hr
    rw [if_neg hr, if_pos hillegal, if_pos hillegal]
    rfl

end Sys2Proof.Machine
end

section
/-! Proofs of the statements about DECODE (spec/41_codec.md R122 to R126): its fields are those of the record's bytes,
and a port's check of the reserved bits is the range check of the record. -/

namespace Sys2Proof.Machine

/-! ## Reported values -/

/-- R126: the mask keeps the low four bits. -/
theorem pinsOut_eq (cfg : Config) (x : Byte) :
    pinsOut cfg x = if cfg.pinDecodeMask then BitVec.ofNat 8 (x.toNat % 16) else x := by
  have hmask : x &&& 0x0F#8 = BitVec.ofNat 8 (x.toNat % 16) := by
    apply BitVec.eq_of_toNat_eq
    have hand : (x &&& 0x0F#8).toNat = x.toNat % 16 := Nat.and_two_pow_sub_one_eq_mod x.toNat 4
    rw [hand, BitVec.toNat_ofNat]
    omega
  rw [pinsOut, hmask]

/-- R192: the two marker bits of `info`, as a number. -/
theorem malformedInfo_eq (cfg : Config) (r : List Byte) :
    malformedInfo cfg r = BitVec.ofNat 8
      ((if recordByte r 0 ≠ cfg.startMarker then 1 else 0) +
        (if recordByte r cfg.offEnd ≠ cfg.endMarker then 2 else 0)) := by
  unfold malformedInfo
  split <;> split <;> simp_all

theorem unbe_four (t3 t2 t1 t0 : Byte) : BitVec.ofNat 32 (unbe [t3, t2, t1, t0]) = t3 ++ t2 ++ t1 ++ t0 := by
  apply BitVec.eq_of_toNat_eq
  simp only [unbe_cons, unbe_nil, List.length_cons, List.length_nil, toNat_append_mul, BitVec.toNat_ofNat]
  omega

theorem unbe_two (t1 t0 : Byte) : BitVec.ofNat 32 (unbe [t1, t0]) = 0#16 ++ t1 ++ t0 := by
  apply BitVec.eq_of_toNat_eq
  simp only [unbe_cons, unbe_nil, List.length_cons, List.length_nil, toNat_append_mul, BitVec.toNat_ofNat]
  omega

/-- R71, R124: the fields of a wide record, whatever its bytes. -/
theorem parse_wide {cfg : Config} (hw : cfg.wide = true) (b0 c t3 t2 t1 t0 pb b7 : Byte) :
    parse cfg [b0, c, t3, t2, t1, t0, pb, b7] = ⟨c, t3 ++ t2 ++ t1 ++ t0, pb, pinsOut cfg pb⟩ := by
  rw [← unbe_four]
  simp [parse, slice, offSeq, offTs, Config.offPin, Config.tsb_wide hw]

/-- R70, R124: the fields of a narrow record, whatever its bytes. -/
theorem parse_narrow {cfg : Config} (hw : cfg.wide = false) (b0 c t1 t0 pb b5 : Byte) :
    parse cfg [b0, c, t1, t0, pb, b5] = ⟨c, 0#16 ++ t1 ++ t0, pb, pinsOut cfg pb⟩ := by
  rw [← unbe_two]
  simp [parse, slice, offSeq, offTs, Config.offPin, Config.tsb_narrow hw]

/-! ## The response of a DECODE -/

/-- The response that reports the fields of a record (R122). -/
def Fields.response (f : Fields) : Response :=
  { valid := true, counter := f.counter, timestamp := f.timestamp, pinByte := f.pinByte, pins := f.pins }

/-- R122, R192: the response to a record in range turns on its two markers. -/
theorem decodeResponse_of_fits {cfg : Config} {pl : Payload} (hfit : recordFits cfg pl = true) :
    decodeResponse cfg pl =
      if recordByte (unpack cfg.rs pl) 0 = cfg.startMarker ∧
          recordByte (unpack cfg.rs pl) cfg.offEnd = cfg.endMarker then
        (parse cfg (unpack cfg.rs pl)).response
      else { status := .malformed, info := malformedInfo cfg (unpack cfg.rs pl) } := by
  rw [decodeResponse, if_pos hfit]
  split_ifs with hm
  · rw [dec_of_markers hm.1 hm.2]
    rfl
  · rw [dec_of_not_markers hm]

theorem decodeResponse_of_not_fits {cfg : Config} {pl : Payload} (hfit : ¬ recordFits cfg pl = true) :
    decodeResponse cfg pl = { status := .illegal, info := 2#8 } := if_neg hfit

/-- R84: the reserved bits of a DECODE are those below the block's record. -/
theorem decode_reserved_clear_iff (cfg : Config) (pl : Payload) :
    pl &&& reservedBits cfg .decode = 0#64 ↔ recordFits cfg pl = true := by
  rw [reserved_clear_iff, recordFits_iff]
  cases hw : cfg.wide <;> simp [reservedFields, hw]

/-- Both rows of DECODE answer as their packed record says (R88, R122). -/
theorem exec_of_opcode_decode {i : Instr} (h : i.opcode = .decode) (s : State) :
    exec i s = .next (s.respond .host (decodeResponse s.cfg i.payload)) := by
  cases i with
  | decodeWide r => exact congrArg _ (s.decodeFrame_eq (pack r))
  | decodeNarrow r => exact congrArg _ (s.decodeFrame_eq (pack r))
  | tick | now | encodeWide | encodeNarrow | emitWide | emitNarrow | syncIn | syncClear => cases h

/-- R122: everything that a DECODE command can do, for every payload. -/
theorem deliver_decode (pl : Payload) (s : State) :
    deliver (.command .host (0x20#8 ++ pl)) s = .next (s.respond .host (decodeResponse s.cfg pl)) := by
  refine (deliver_assigned .decode pl s).trans ?_
  split_ifs with hr
  · rw [exec_of_opcode_decode (operands_opcode _ _ _), payload_operands hr]
  · rw [decodeResponse_of_not_fits (mt (decode_reserved_clear_iff _ _).2 hr)]
    rfl

/-! ## The records of a payload -/

/-- R71, R88: the fields of a payload read as a wide record. -/
theorem parse_unpack_wide {cfg : Config} (hw : cfg.wide = true) (pl : Payload) :
    parse cfg (unpack cfg.rs pl) =
      ⟨pl.extractLsb' 48 8, pl.extractLsb' 16 32, pl.extractLsb' 8 8, pinsOut cfg (pl.extractLsb' 8 8)⟩ := by
  have ht : pl.extractLsb' 40 8 ++ pl.extractLsb' 32 8 ++ pl.extractLsb' 24 8 ++ pl.extractLsb' 16 8 =
      pl.extractLsb' 16 32 := by
    simp only [BitVec.extractLsb'_append_extractLsb'_eq_extractLsb']
  rw [Config.rs_wide hw, ← ht]
  exact parse_wide hw _ _ _ _ _ _ _ _

/-- R70, R88: the fields of a payload read as a narrow record. -/
theorem parse_unpack_narrow {cfg : Config} (hw : cfg.wide = false) (pl : Payload) :
    parse cfg (unpack cfg.rs pl) =
      ⟨pl.extractLsb' 48 8, (pl.extractLsb' 32 16).setWidth 32, pl.extractLsb' 24 8,
        pinsOut cfg (pl.extractLsb' 24 8)⟩ := by
  have ht : 0#16 ++ pl.extractLsb' 40 8 ++ pl.extractLsb' 32 8 = (pl.extractLsb' 32 16).setWidth 32 := by
    apply BitVec.eq_of_toNat_eq
    simp only [toNat_append_mul, BitVec.toNat_setWidth, toNat_extractLsb'_div, BitVec.toNat_zero]
    omega
  rw [Config.rs_narrow hw, ← ht]
  exact parse_narrow hw _ _ _ _ _ _

/-! ## The statements -/

/-- Settles O15: both markers are in place, and the fields are those of the bytes. -/
theorem decodeWideReadsMarkedRecord : Obligations.DecodeWideReadsMarkedRecord := by
  intro s c t3 t2 t1 t0 pb hw
  refine (exec_of_opcode_decode rfl s).trans ?_
  rw [Instr.payload, decodeResponse_of_fits ((recordFits_iff _ _).2 (.inl hw)), Config.rs_wide hw, unpack_pack_eight,
    parse_wide hw, pinsOut_eq, if_pos (by simp [Config.offEnd, Config.rs_wide hw])]
  rfl

/-- Settles O16: both markers are in place, and the fields are those of the bytes. -/
theorem decodeNarrowReadsMarkedRecord : Obligations.DecodeNarrowReadsMarkedRecord := by
  intro s c t1 t0 pb hw
  refine (exec_of_opcode_decode rfl s).trans ?_
  rw [Instr.payload, decodeResponse_of_fits (pack_six_fits ..), Config.rs_narrow hw, unpack_pack_six,
    parse_narrow hw, pinsOut_eq, if_pos (by simp [Config.offEnd, Config.rs_narrow hw])]
  rfl

/-- Settles O8: the bits that a narrow port requires to be clear are those below the record; past that check the markers
decide, and the fields stand in the payload by position. -/
theorem decodeCommandReadsRecord : Obligations.DecodeCommandReadsRecord := by
  intro s pl first last pb
  have hfirst : recordByte (unpack s.cfg.rs pl) 0 = first := recordByte_unpack s.cfg.rs_pos pl
  have hlast : recordByte (unpack s.cfg.rs pl) s.cfg.offEnd = last := by
    cases hw : s.cfg.wide <;> simp [last, hw, Config.offEnd, Config.rs_wide, Config.rs_narrow, recordByte_unpack]
  have hfit : recordFits s.cfg pl = true ↔ ¬ (s.cfg.wide = false ∧ pl.extractLsb' 0 16 ≠ 0#16) := by
    simp [recordFits, imp_iff_not_or]
  refine (deliver_decode pl s).trans ?_
  by_cases hf : recordFits s.cfg pl = true
  · rw [if_neg (hfit.1 hf), decodeResponse_of_fits hf, malformedInfo_eq, hfirst, hlast]
    cases hw : s.cfg.wide
    · rw [parse_unpack_narrow hw, pinsOut_eq]
      simp [pb, hw, Fields.response, State.respond]
    · rw [parse_unpack_wide hw, pinsOut_eq]
      simp [pb, hw, Fields.response, State.respond]
  · rw [if_pos (not_not.1 (mt hfit.2 hf)), decodeResponse_of_not_fits hf]
    rfl

end Sys2Proof.Machine
end

section
/-! Proofs of the statements about the commands of both widths taken together (spec/41_codec.md R125, R127;
spec/95_test_vectors.md L1.4): the words of ENCODE and EMIT do not depend on the width, and a run of EMITs numbers its
frames consecutively. -/

namespace Sys2Proof.Machine

/-! ## Words of either width -/

/-- A timestamp below 2^16 is a narrow one, extended by zeros. -/
theorem exists_narrow_of_lt {t : BitVec 32} (h : t.toNat < 2 ^ 16) : ∃ n : BitVec 16, t = n.setWidth 32 := by
  refine ⟨t.setWidth 16, BitVec.eq_of_toNat_eq ?_⟩
  rw [BitVec.toNat_setWidth, BitVec.toNat_setWidth]
  omega

/-- An instruction arrives as its opcode and payload say (R80). -/
theorem arrival_congr {i j : Instr} (ho : i.opcode = j.opcode) (hp : i.payload = j.payload) :
    arrival i = arrival j := by
  simp only [arrival, encode, Instr.unit, ho, hp]

/-- R82, R85: the narrow row's word is the wide row's, its timestamp extended by zeros. -/
theorem arrival_encodeNarrow (c : Byte) (n : BitVec 16) (p : BitVec 4) :
    arrival (.encodeNarrow c n p) = arrival (.encodeWide c (n.setWidth 32) p) := by
  refine arrival_congr rfl (BitVec.eq_of_toNat_eq ?_)
  rw [toNat_payload_encodeNarrow, toNat_payload_encodeWide, BitVec.toNat_setWidth]
  omega

theorem arrival_emitNarrow (n : BitVec 16) (p : BitVec 4) :
    arrival (.emitNarrow n p) = arrival (.emitWide (n.setWidth 32) p) := by
  refine arrival_congr rfl (BitVec.eq_of_toNat_eq ?_)
  rw [toNat_payload_emitNarrow, toNat_payload_emitWide, BitVec.toNat_setWidth]
  omega

/-- R120, in a block of either width: an ENCODE in range arrives, and is answered with its packed frame. -/
theorem deliver_arrival_encode {s : State} {t : BitVec 32} (ht : t.toNat < 2 ^ s.cfg.tw) (c : Byte) (p : BitVec 4) :
    deliver (arrival (.encodeWide c t p)) s = .next (s.respond .dev { value := pack (enc s.cfg c t p) }) := by
  rw [← exec_encodeWide ((timestampFits_iff _ _).2 ht)]
  cases hw : s.cfg.wide
  · rw [Config.tw_narrow hw] at ht
    obtain ⟨n, rfl⟩ := exists_narrow_of_lt ht
    rw [← arrival_encodeNarrow]
    exact deliver_arrival (wf_encodeNarrow_iff.2 hw)
  · exact deliver_arrival hw

/-- The block after an EMIT in range (R121). -/
def State.afterEmit (s : State) (t : BitVec 32) (p : BitVec 4) : State :=
  s.applyDev
    ⟨{ s.dev with seq := s.dev.seq + 1#8 }, { value := pack (enc s.cfg s.dev.seq t p), counter := s.dev.seq }⟩

/-- R121, in a block of either width: an EMIT in range arrives, and is answered with the packed frame that carries
`SEQ`. -/
theorem deliver_arrival_emit {s : State} {t : BitVec 32} (ht : t.toNat < 2 ^ s.cfg.tw) (p : BitVec 4) :
    deliver (arrival (.emitWide t p)) s = .next (s.afterEmit t p) := by
  refine Eq.trans ?_ (exec_emitWide ((timestampFits_iff _ _).2 ht) p)
  cases hw : s.cfg.wide
  · rw [Config.tw_narrow hw] at ht
    obtain ⟨n, rfl⟩ := exists_narrow_of_lt ht
    rw [← arrival_emitNarrow]
    exact deliver_arrival (wf_emitNarrow_iff.2 hw)
  · exact deliver_arrival hw

/-- R86: what the assembler makes of an EMIT arrives as the word of the wide row. -/
theorem arrival_of_asmEmit {cfg : Config} {t p : Nat} {i : Instr} (h : asmEmit cfg t p = some i) :
    arrival i = arrival (.emitWide (BitVec.ofNat 32 t) (BitVec.ofNat 4 p)) := by
  obtain ⟨⟨ht, -⟩, rfl⟩ := asmEmit_eq_some_iff.1 h
  cases hw : cfg.wide
  · rw [Config.tw_narrow hw] at ht
    have hn : (BitVec.ofNat 16 t).setWidth 32 = BitVec.ofNat 32 t := by
      apply BitVec.eq_of_toNat_eq
      simp only [BitVec.toNat_setWidth, BitVec.toNat_ofNat]
      omega
    rw [← hn]
    exact arrival_emitNarrow _ _
  · rfl

/-! ## Runs of EMITs -/

/-- The responses to EMITs of these timestamps and pins, the first with counter `n` (R127). -/
def emitReplies (cfg : Config) (n : Byte) : List (BitVec 32 × BitVec 4) → List Reply
  | [] => []
  | e :: es => ⟨.dev, { value := pack (enc cfg n e.1 e.2), counter := n }⟩ :: emitReplies cfg (n + 1#8) es

/-- The block after EMITs of these timestamps and pins. -/
def State.afterEmits (es : List (BitVec 32 × BitVec 4)) (s : State) : State :=
  { s with dev := { s.dev with seq := s.dev.seq + BitVec.ofNat 8 es.length }
           responses := s.responses ++ emitReplies s.cfg s.dev.seq es }

theorem State.afterEmits_nil (s : State) : s.afterEmits [] = s := by simp [afterEmits, emitReplies]

theorem State.afterEmits_cons (e : BitVec 32 × BitVec 4) (es : List (BitVec 32 × BitVec 4)) (s : State) :
    s.afterEmits (e :: es) = (s.afterEmit e.1 e.2).afterEmits es := by
  have hseq : s.dev.seq + BitVec.ofNat 8 (es.length + 1) = s.dev.seq + 1#8 + BitVec.ofNat 8 es.length := by
    rw [BitVec.add_assoc, BitVec.ofNat_add, BitVec.add_comm (BitVec.ofNat 8 es.length)]
  simp [afterEmits, afterEmit, applyDev, respond, emitReplies, hseq]

theorem runInputs_emits {s : State} (hw : s.cfg.wf = true) {es : List (BitVec 32 × BitVec 4)}
    (hes : ∀ e ∈ es, e.1.toNat < 2 ^ s.cfg.tw) :
    runInputs (program (es.map fun e => .emitWide e.1 e.2)) s = .next ((s.afterEmits es).withInput []) := by
  induction es generalizing s with
  | nil => rw [State.afterEmits_nil]; rfl
  | cons e es ih =>
    obtain ⟨he, hes⟩ := List.forall_mem_cons.1 hes
    rw [State.afterEmits_cons, ← ih (s := s.afterEmit e.1 e.2) hw hes]
    exact runInputs_cons hw (deliver_arrival_emit he e.2) _

/-- R127: the counters are consecutive modulo 256, and every EMIT is OK. -/
theorem emitReplies_counters (cfg : Config) (n : Byte) (es : List (BitVec 32 × BitVec 4)) :
    (emitReplies cfg n es).map (fun r => (r.port, r.response.status, r.response.counter.toNat)) =
      (List.range es.length).map fun k => (.dev, .ok, (n.toNat + k) % 256) := by
  induction es generalizing n with
  | nil => rfl
  | cons e es ih =>
    have hn : (n + 1#8).toNat = (n.toNat + 1) % 256 := BitVec.toNat_add n 1#8
    have hlt : n.toNat % 256 = n.toNat := Nat.mod_eq_of_lt n.isLt
    rw [emitReplies, List.map_cons, ih, List.length_cons, List.range_succ_eq_map, List.map_cons, List.map_map]
    simp [hn, hlt, Nat.add_assoc, Nat.add_comm 1]

/-! ## The statements -/

/-- Settles O19: EMIT is the only writer of `SEQ`; a run of EMITs, taken one at a time, gives each frame the counter that
the EMITs before it have led to. -/
theorem emitsNumberTheirFrames : Obligations.EmitsNumberTheirFrames := by
  constructor
  · intro i s t h hi
    obtain ⟨-, hseq, -⟩ := onlyItsWriterChangesARegister i s t h
    exact not_not.1 (mt hseq hi)
  · intro s es hw hes
    refine ⟨_, runInputs_emits hw hes, ?_, ?_⟩
    · simp [State.afterEmits]
    · rw [newReplies_of_append (rs := emitReplies s.cfg s.dev.seq es) rfl, emitReplies_counters]

/-- Settles O20: the two words of an EDGE arrive as a run of two EMITs. -/
theorem edgeEmitsTwoFrames : Obligations.EdgeEmitsTwoFrames := by
  intro s t0 t1 p0 p1 hw ht0 ht1 hp0 hp1
  obtain ⟨i, hi⟩ : ∃ i, asmEmit s.cfg t0 p0 = some i := ⟨_, asmEmit_eq_some_iff.2 ⟨⟨ht0, hp0⟩, rfl⟩⟩
  obtain ⟨j, hj⟩ : ∃ j, asmEmit s.cfg t1 p1 = some j := ⟨_, asmEmit_eq_some_iff.2 ⟨⟨ht1, hp1⟩, rfl⟩⟩
  have hrange {t : Nat} (ht : t < 2 ^ s.cfg.tw) : (BitVec.ofNat 32 t).toNat < 2 ^ s.cfg.tw :=
    (Nat.mod_le _ _).trans_lt ht
  have hes : ∀ e ∈ [(BitVec.ofNat 32 t0, BitVec.ofNat 4 p0), (BitVec.ofNat 32 t1, BitVec.ofNat 4 p1)],
      e.1.toNat < 2 ^ s.cfg.tw := by
    simpa using ⟨hrange ht0, hrange ht1⟩
  have hrun := runInputs_emits hw hes
  rw [program, List.map_map, List.map_cons, List.map_singleton, Function.comp_apply, Function.comp_apply,
    ← arrival_of_asmEmit hi, ← arrival_of_asmEmit hj] at hrun
  exact ⟨[i, j], _, assemble_edge_eq_some_iff.2 ⟨i, j, hi, hj, rfl⟩, hrun, newReplies_of_append rfl, rfl, rfl, rfl⟩

/-! ## DECODE of an encoded frame -/

/-- A packed frame is in range in a block of its own width. -/
theorem recordFits_pack_enc (cfg : Config) (c : Byte) (t : BitVec 32) (p : BitVec 4) :
    recordFits cfg (pack (enc cfg c t p)) = true := by
  cases hw : cfg.wide
  · rw [enc_narrow hw]
    exact pack_six_fits ..
  · exact (recordFits_iff _ _).2 (.inl hw)

/-- R73: the pin byte of a frame has bits [7:4] zero. -/
theorem setWidth_pins (p : BitVec 4) : p.setWidth 8 = 0#4 ++ p := by
  revert p
  decide

/-- R125: a DECODE of a packed frame reports the operands that it was built from. -/
theorem decodeResponse_pack_enc {cfg : Config} {t : BitVec 32} (ht : t.toNat < 2 ^ cfg.tw) (c : Byte) (p : BitVec 4) :
    decodeResponse cfg (pack (enc cfg c t p)) =
      { valid := true, counter := c, timestamp := t, pinByte := 0#4 ++ p, pins := 0#4 ++ p } := by
  rw [decodeResponse_of_fits (recordFits_pack_enc cfg c t p), unpack_pack_enc, if_pos (enc_markers cfg c t p),
    parse_enc ht, setWidth_pins]
  rfl

/-- Settles O18: the ENCODE returns the packed frame, and the DECODE of it reports the operands. -/
theorem decodeUndoesEncode : Obligations.DecodeUndoesEncode := by
  intro s c t p ht
  refine ⟨_, _, _, deliver_arrival_encode ht c p, newReplies_of_append rfl, deliver_decode _ _, ?_⟩
  rw [newReplies_of_append (State.respond_responses ..), State.respond_cfg, decodeResponse_pack_enc ht]

end Sys2Proof.Machine
end

section
/-! Proof of the end-to-end statement (spec/41_codec.md R121 and R125; spec/42_synchronizer.md R155 and R158): the bytes of
a whole frame, fed into the empty window, are kept one by one until the end marker completes the candidate. -/

namespace Sys2Proof.Machine

/-! ## Bytes that are kept (R153) -/

/-- R153: with a quiescent window the step loop waits at once. -/
theorem processLoop_of_quiescent {s : State} (h : s.Quiescent) (fuel : Nat) (acc : Option Record) (nd : Nat) :
    processLoop fuel acc nd s = { state := s, acc, nd } := by
  cases fuel with
  | zero => rfl
  | succ fuel => simp only [processLoop, (State.syncAction_wait_iff s).2 h]

/-- R158: a byte that leaves an incomplete candidate is kept, and the response reports nothing. -/
theorem exec_syncIn_of_quiescent {s : State} {b : Byte} (h : (s.append b).Quiescent) :
    exec (.syncIn b) s = .next ((s.append b).respond .host {}) := by
  simp only [exec, execSyncIn, State.process, processLoop_of_quiescent h]
  rfl

/-- The block after bytes that were all kept. -/
def State.afterKept (bs : List Byte) (s : State) : State :=
  { s with host := { s.host with win := s.host.win ++ bs }
           responses := s.responses ++ List.replicate bs.length ⟨.host, {}⟩ }

theorem State.afterKept_nil (s : State) : s.afterKept [] = s := by simp [afterKept]

theorem State.afterKept_cons (b : Byte) (bs : List Byte) (s : State) :
    s.afterKept (b :: bs) = ((s.append b).respond .host {}).afterKept bs := by
  simp [afterKept, append, respond, List.replicate_succ]

/-- R153, R158: the bytes of a candidate that begins with the start marker are kept while they do not fill it. -/
theorem runInputs_feed_kept {s : State} (hw : s.cfg.wf = true) {bs : List Byte}
    (hhead : (s.host.win ++ bs).head? = some s.cfg.startMarker) (hlen : (s.host.win ++ bs).length < s.cfg.rs)
    (rest : List Byte) : runInputs (feed (bs ++ rest)) s = runInputs (feed rest) (s.afterKept bs) := by
  induction bs generalizing s with
  | nil => rw [State.afterKept_nil]; rfl
  | cons b bs ih =>
    have hq : (s.append b).Quiescent := by
      refine .inr ⟨?_, ?_⟩
      · simpa using hhead
      · simp only [List.length_append, List.length_cons, List.length_nil, State.append_host, State.append_cfg] at hlen ⊢
        omega
    rw [State.afterKept_cons, ← ih (s := (s.append b).respond .host {}) hw (by simpa using hhead) (by simpa using hlen)]
    exact runInputs_program_cons hw rfl (exec_syncIn_of_quiescent hq) _

/-! ## A whole frame (R155) -/

/-- The record that the host unit `h` makes of a frame (R155, R159). -/
def frameRecord (cfg : Config) (h : HostUnit) (frame : List Byte) : Record :=
  let f := parse cfg frame
  { counter := f.counter, timestamp := f.timestamp, pinByte := f.pinByte, pins := f.pins, gap := gapBit h f.counter }

/-- A window that holds one frame and nothing else is the candidate as a whole. -/
theorem State.candidate_eq_frameRecord {s : State} (h : s.host.win.length = s.cfg.rs) :
    s.candidate = frameRecord s.cfg s.host s.host.win := by
  have hmem : s.memRead 0 s.cfg.rs = s.host.win := by simp [memRead, slice, ← h]
  rw [candidate, hmem]
  rfl

/-- The effect of the SYNC_IN that accepts `rec` as the whole window (R155, R158, R159). -/
def acceptEffect (rec : Record) : HostEffect :=
  { host := ⟨[], rec.counter, true⟩, emitted := [rec], response := syncResponse (some rec) 0 }

/-- R155, R158: the end marker that fills the candidate is accepted with it. -/
theorem exec_syncIn_accept {s : State} {w : List Byte} (hwin : s.host.win = s.cfg.startMarker :: w)
    (hl : w.length + 2 = s.cfg.rs) {rec : Record}
    (hrec : frameRecord s.cfg s.host (s.host.win ++ [s.cfg.endMarker]) = rec) :
    exec (.syncIn s.cfg.endMarker) s = .next (s.applyHost (acceptEffect rec)) := by
  have hlen : (s.host.win ++ [s.cfg.endMarker]).length = s.cfg.rs := by simp [hwin, ← hl]
  have hcand : (s.append s.cfg.endMarker).candidate = rec := (State.candidate_eq_frameRecord hlen).trans hrec
  have haccept : (s.append s.cfg.endMarker).accept =
      { s with host := ⟨[], rec.counter, true⟩, output := s.output ++ [rec] } := by
    rw [State.accept, hcand]
    simp [State.dropFront, State.emit, State.observe, State.append, ← hlen]
  simp only [exec, execSyncIn, State.process_append_accept hwin hl, hcand, haccept]
  rfl

/-- R155, R158: a whole frame fed into the empty window is accepted with its last byte, and nothing is discarded. -/
theorem runInputs_feed_frame {s : State} (hw : s.cfg.wf = true) (hwin : s.host.win = []) {w : List Byte}
    (hl : w.length + 2 = s.cfg.rs) {rec : Record}
    (hrec : frameRecord s.cfg s.host (s.cfg.startMarker :: w ++ [s.cfg.endMarker]) = rec) :
    runInputs (feed (s.cfg.startMarker :: w ++ [s.cfg.endMarker])) s =
      .next (((s.afterKept (s.cfg.startMarker :: w)).applyHost (acceptEffect rec)).withInput []) := by
  have hkept : (s.afterKept (s.cfg.startMarker :: w)).host.win = s.cfg.startMarker :: w := by
    simp [State.afterKept, hwin]
  rw [runInputs_feed_kept hw (by simp [hwin]) (by simp [hwin]; omega)]
  refine runInputs_program_singleton (s := s.afterKept _) hw rfl (exec_syncIn_accept hkept hl ?_)
  rw [hkept]
  exact hrec

/-- A frame is its body between the two markers (R120). -/
theorem exists_enc_eq_markers (cfg : Config) (c : Byte) (t : BitVec 32) (p : BitVec 4) :
    ∃ w : List Byte, enc cfg c t p = cfg.startMarker :: w ++ [cfg.endMarker] ∧ w.length + 2 = cfg.rs :=
  ⟨c :: be cfg.tsb t ++ [p.setWidth 8], by simp [enc], by simp [Config.rs]⟩

/-- R125, R155: the record that the host unit makes of an encoded frame holds the operands. -/
theorem frameRecord_enc {cfg : Config} {t : BitVec 32} (ht : t.toNat < 2 ^ cfg.tw) (h : HostUnit) (c : Byte)
    (p : BitVec 4) : frameRecord cfg h (enc cfg c t p) = ⟨c, t, 0#4 ++ p, 0#4 ++ p, gapBit h c⟩ := by
  rw [frameRecord, parse_enc ht, setWidth_pins]

/-- Settles O36: EMIT's record unpacks to the frame, and the idle host unit accepts a whole frame. -/
theorem emittedFrameReachesConsumer : Obligations.EmittedFrameReachesConsumer := by
  intro s t p hw ht hwin
  have hemit := runInputs_cons hw (deliver_arrival_emit ht p) []
  obtain ⟨w, henc, hl⟩ := exists_enc_eq_markers s.cfg s.dev.seq t p
  have hrec := frameRecord_enc ht s.host s.dev.seq p
  rw [henc] at hrec
  have hfeed := runInputs_feed_frame (s := (s.afterEmit t p).withInput []) hw hwin hl hrec
  have hbytes : feed (unpack s.cfg.rs (pack (enc s.cfg s.dev.seq t p))) =
      feed (s.cfg.startMarker :: w ++ [s.cfg.endMarker]) := by
    rw [unpack_pack_enc, henc]
  refine ⟨_, _, _, _, hemit, newReplies_of_append rfl, (congrArg (runInputs · _) hbytes).trans hfeed, rfl, ?_, rfl⟩
  rw [newReplies_of_append (List.append_assoc ..)]
  simp [totalDiscards, acceptEffect, syncResponse]

end Sys2Proof.Machine
end

section
/-! Proofs of the statements about one SYNC_IN or SYNC_CLEAR (spec/42_synchronizer.md R151 to R160): the step loop is
taken one action at a time, and from a quiescent window a SYNC_IN either accepts the candidate that its byte completes
or accepts nothing and keeps an end piece of the window. -/

namespace Sys2Proof.Machine

/-! ## The step loop, one action at a time (R156) -/

/-- The step loop from `acc` and `nd`, with `WLEN` as its bound. -/
def State.processFrom (s : State) (acc : Option Record) (nd : Nat) : Processed := processLoop s.host.wlen acc nd s

theorem State.process_eq_processFrom (s : State) : s.process = s.processFrom none 0 := rfl

theorem State.processFrom_of_quiescent {s : State} (h : s.Quiescent) (acc : Option Record) (nd : Nat) :
    s.processFrom acc nd = { state := s, acc, nd } := processLoop_of_quiescent h _ acc nd

theorem State.processFrom_drop {s : State} (h : s.syncAction = .dropResync ∨ s.syncAction = .dropBadEnd)
    (acc : Option Record) (nd : Nat) : s.processFrom acc nd = (s.dropFront 1).processFrom acc (nd + 1) := by
  rw [processFrom, ← wlen_dropFront_lt h, processLoop]
  rcases h with h | h <;> rw [h] <;> rfl

theorem State.processFrom_accept {s : State} (h : s.syncAction = .accept) (acc : Option Record) (nd : Nat) :
    s.processFrom acc nd = s.accept.processFrom (some s.candidate) nd := by
  have hlen := wlen_accept h
  have hrs := s.cfg.rs_pos
  obtain ⟨n, hn⟩ : ∃ n, s.host.wlen = n + 1 := ⟨s.host.wlen - 1, by omega⟩
  rw [processFrom, hn, processLoop, h]
  exact processLoop_fuel n _ s.accept _ nd (by omega) le_rfl

/-- What holds of the windows where the loop waits, and passes from what an action leaves back to where it was taken,
holds of every window. -/
theorem State.sync_induction {P : State → Prop} (wait : ∀ s : State, s.Quiescent → P s)
    (drop : ∀ s : State, s.syncAction = .dropResync ∨ s.syncAction = .dropBadEnd → P (s.dropFront 1) → P s)
    (accept : ∀ s : State, s.syncAction = .accept → P s.accept → P s) (s : State) : P s := by
  induction hn : s.host.wlen using Nat.strong_induction_on generalizing s with
  | _ n ih =>
    rcases s.syncAction_cases with ⟨-, hq⟩ | ⟨ha, -⟩ | ⟨ha, -⟩ | ⟨ha, -⟩
    · exact wait s hq
    · have := wlen_dropFront_lt (.inl ha)
      exact drop s (.inl ha) (ih _ (by omega) _ rfl)
    · have := wlen_dropFront_lt (.inr ha)
      exact drop s (.inr ha) (ih _ (by omega) _ rfl)
    · have := wlen_accept ha
      have := s.cfg.rs_pos
      exact accept s ha (ih _ (by omega) _ rfl)

/-! ## What a SYNC_IN does (R152 to R158) -/

/-- The effect of the SYNC_IN that accepts nothing, and leaves `left` of the window and its byte. -/
def discardEffect (h : HostUnit) (left : List Byte) : HostEffect :=
  { host := { h with win := left }, emitted := []
    response := { ndisc := BitVec.ofNat 8 (h.wlen + 1 - left.length) } }

/-- R152, R153: while the window is short of a frame, it keeps its bytes from the first start marker on. -/
theorem exec_syncIn_short {s : State} (hl : s.host.win.length + 1 < s.cfg.rs) (b : Byte) :
    exec (.syncIn b) s = .next (s.applyHost
      (discardEffect s.host ((s.host.win ++ [b]).dropWhile (· != s.cfg.startMarker)))) := by
  have hloop := processLoop_stray (s.append b).host.wlen (s.append b) none 0 le_rfl (by simpa using hl)
  simp only [exec, execSyncIn, State.process, hloop]
  simp [State.append, State.applyHost, State.respond, discardEffect, syncResponse, HostUnit.wlen]

/-- R154, R152: a full candidate with a wrong last byte loses its start marker, and what is left is then searched for
the next one. -/
theorem exec_syncIn_badEnd {s : State} {b : Byte} {w : List Byte} (hwin : s.host.win = s.cfg.startMarker :: w)
    (hl : w.length + 2 = s.cfg.rs) (hb : b ≠ s.cfg.endMarker) :
    exec (.syncIn b) s = .next (s.applyHost
      (discardEffect s.host ((w ++ [b]).dropWhile (· != s.cfg.startMarker)))) := by
  have hact : (s.append b).syncAction = .dropBadEnd := by
    rw [State.syncAction_full (w := w ++ [b]) (by simp [hwin]) (by simp [hwin, ← hl])]
    exact if_neg (by simpa [hwin, recordByte, ← hl] using hb)
  have hloop := (State.processFrom_drop (.inr hact) none 0).trans
    (processLoop_stray _ ((s.append b).dropFront 1) none 1 le_rfl (by simp [hwin, ← hl]))
  have hle := (List.dropWhile_suffix (l := w ++ [b]) (· != s.cfg.startMarker)).length_le
  have hnd : 1 + (w.length + 1 - ((w ++ [b]).dropWhile (· != s.cfg.startMarker)).length) =
      w.length + 1 + 1 - ((w ++ [b]).dropWhile (· != s.cfg.startMarker)).length := by
    simp only [List.length_append, List.length_singleton] at hle
    omega
  simp only [exec, execSyncIn, State.process_eq_processFrom, hloop]
  simp [State.append, State.dropFront, State.applyHost, State.respond, discardEffect, syncResponse, HostUnit.wlen, hwin,
    hnd]

/-- Everything that a SYNC_IN can do from a quiescent window: it keeps an end piece of the window and its byte, or it
accepts the candidate that its byte, the end marker, completes. -/
theorem exec_syncIn_cases {s : State} (hq : s.Quiescent) (b : Byte) :
    (∃ left, left <:+ s.host.win ++ [b] ∧
      exec (.syncIn b) s = .next (s.applyHost (discardEffect s.host left))) ∨
    (s.host.wlen + 1 = s.cfg.rs ∧
      exec (.syncIn b) s = .next (s.applyHost (acceptEffect (frameRecord s.cfg s.host (s.host.win ++ [b]))))) := by
  by_cases hl : s.host.win.length + 1 < s.cfg.rs
  · exact .inl ⟨_, List.dropWhile_suffix _, exec_syncIn_short hl b⟩
  have hlt := hq.length_lt
  have hrs := s.cfg.rs_cases
  obtain ⟨w, hwin⟩ : ∃ w, s.host.win = s.cfg.startMarker :: w := by
    rcases hq with hnil | ⟨hhead, -⟩
    · simp only [hnil, List.length_nil] at hl; omega
    · exact List.head?_eq_some_iff.1 hhead
  have hlw : w.length + 2 = s.cfg.rs := by simp only [hwin, List.length_cons] at hl hlt; omega
  by_cases hb : b = s.cfg.endMarker
  · subst hb
    exact .inr ⟨by simp [HostUnit.wlen, hwin, ← hlw], exec_syncIn_accept hwin hlw rfl⟩
  · refine .inl ⟨_, (List.dropWhile_suffix _).trans ?_, exec_syncIn_badEnd hwin hlw hb⟩
    exact ⟨[s.cfg.startMarker], by simp [hwin]⟩

/-- R157: after a SYNC_IN the window is quiescent, whatever it was before. -/
theorem quiescent_of_exec_syncIn {s t : State} {b : Byte} (h : exec (.syncIn b) s = .next t) : t.Quiescent := by
  cases h
  exact (s.append b).process_quiescent

/-! ## The fields of an accepted record (R126, R159) -/

/-- R159: the continuity bit, with the counters as numbers. -/
theorem gapBit_eq (h : HostUnit) (c : Byte) :
    gapBit h c = decide (h.lastValid = true ∧ c.toNat ≠ (h.last.toNat + 1) % 256) := by
  have hne : (c != h.last + 1#8) = decide (c.toNat ≠ (h.last.toNat + 1) % 256) := by
    rw [Bool.eq_iff_iff, bne_iff_ne, decide_eq_true_iff, ne_eq, ne_eq, ← BitVec.toNat_inj, BitVec.toNat_add]
    rfl
  rw [gapBit, hne, Bool.decide_and, Bool.decide_eq_true]

/-! ## The statements -/

/-- Settles O22: with the byte kept the window is quiescent, so the step loop waits at once. -/
theorem syncInKeepsIncompleteCandidate : Obligations.SyncInKeepsIncompleteCandidate := by
  intro s b h
  refine exec_syncIn_of_quiescent (.inr ?_)
  have hrs := s.cfg.rs_cases
  rcases h with ⟨hwin, rfl⟩ | ⟨hhead, hlen⟩
  · simp only [State.append_host, State.append_cfg, hwin]
    exact ⟨rfl, by simp only [List.nil_append, List.length_singleton]; omega⟩
  · exact ⟨by simp [hhead], by simpa using hlen⟩

/-- Settles O23: the search for a start marker drops the byte. -/
theorem syncInDiscardsStrayByte : Obligations.SyncInDiscardsStrayByte := by
  intro s b hwin hb
  have hrs := s.cfg.rs_cases
  have hleft : (s.host.win ++ [b]).dropWhile (· != s.cfg.startMarker) = s.host.win := by simp [hwin, hb]
  rw [exec_syncIn_short (by simp only [hwin, List.length_nil]; omega), hleft]
  simp [State.applyHost, State.respond, discardEffect, HostUnit.wlen]

/-- Settles O24: the fields of the accepted record are those of the narrow candidate's bytes. -/
theorem syncInAcceptsNarrowFrame : Obligations.SyncInAcceptsNarrowFrame := by
  intro s c t1 t0 pb hwide hwin
  have hlen : [c, t1, t0, pb].length + 2 = s.cfg.rs := (Config.rs_narrow hwide).symm
  rw [← pinsOut_eq, ← gapBit_eq]
  refine exec_syncIn_accept hwin hlen (rec := ⟨c, 0#16 ++ t1 ++ t0, pb, pinsOut s.cfg pb, gapBit s.host c⟩) ?_
  simp [hwin, frameRecord, parse_narrow hwide]

/-- Settles O25: the fields of the accepted record are those of the wide candidate's bytes. -/
theorem syncInAcceptsWideFrame : Obligations.SyncInAcceptsWideFrame := by
  intro s c t3 t2 t1 t0 pb hwide hwin
  have hlen : [c, t3, t2, t1, t0, pb].length + 2 = s.cfg.rs := (Config.rs_wide hwide).symm
  rw [← pinsOut_eq, ← gapBit_eq]
  refine exec_syncIn_accept hwin hlen (rec := ⟨c, t3 ++ t2 ++ t1 ++ t0, pb, pinsOut s.cfg pb, gapBit s.host c⟩) ?_
  simp [hwin, frameRecord, parse_wide hwide]

/-- Settles O26: the window and its byte are `RS` bytes together, so what is not left was dropped. -/
theorem syncInRescansAfterBadEnd : Obligations.SyncInRescansAfterBadEnd := by
  intro s b hhead hlen hb
  obtain ⟨w, hwin⟩ := List.head?_eq_some_iff.1 hhead
  have hl : w.length + 2 = s.cfg.rs := by simpa [hwin] using hlen
  rw [exec_syncIn_badEnd hwin hl hb]
  simp [State.applyHost, State.respond, discardEffect, HostUnit.wlen, hwin, ← hl]

/-- Settles O27, by the two things that a SYNC_IN can do from a quiescent window. -/
theorem syncInFromQuiescentWindow : Obligations.SyncInFromQuiescentWindow := by
  intro s b hq
  have hlt := hq.length_lt
  have hrs := s.cfg.rs_cases
  have hroom : s.host.wlen ≤ s.cfg.rs - 1 := Nat.le_sub_one_of_lt hlt
  rcases exec_syncIn_cases hq b with ⟨left, hleft, h⟩ | ⟨hfull, h⟩
  · have hle := hleft.length_le
    have hnd : (discardEffect s.host left).response.ndisc.toNat = s.host.wlen + 1 - left.length := by
      refine (BitVec.toNat_ofNat _ 8).trans (Nat.mod_eq_of_lt ?_)
      omega
    rw [List.length_append, List.length_singleton] at hle
    refine ⟨_, _, hroom, h, quiescent_of_exec_syncIn h, newReplies_of_append rfl, rfl, ?_, rfl,
      .inl ⟨rfl, List.append_nil _, rfl, rfl, ?_⟩⟩
    · omega
    · rw [hnd]
      exact Nat.add_sub_cancel' hle
  · exact ⟨_, _, hroom, h, quiescent_of_exec_syncIn h, newReplies_of_append rfl, rfl, Nat.zero_le _, rfl,
      .inr ⟨rfl, rfl, rfl, hfull, rfl⟩⟩

/-- Settles O28: the step loop ends in WAIT. -/
theorem syncInAlwaysEndsQuiescent : Obligations.SyncInAlwaysEndsQuiescent := fun _ _ =>
  ⟨_, rfl, quiescent_of_exec_syncIn rfl⟩

/-- R160: SYNC_CLEAR answers with the length of the window that it empties. -/
theorem exec_syncClear (s : State) :
    exec .syncClear s =
      .next (s.applyHost ⟨{ s.host with win := [] }, [], { ndisc := BitVec.ofNat 8 s.host.wlen }⟩) := by
  rw [exec_host rfl, hostEffect, HostUnit.wlen, List.drop_length]

/-- Settles O29: at the port SYNC_CLEAR's payload is reserved as a whole. -/
theorem syncClearEmptiesWindow : Obligations.SyncClearEmptiesWindow := by
  intro s
  have h := exec_syncClear s
  rw [State.applyHost, List.append_nil] at h
  refine ⟨h, fun pl => ?_⟩
  have hport := deliver_of_no_operands (o := .syncClear) (s := s) rfl pl
  rw [operands, h] at hport
  exact hport

end Sys2Proof.Machine
end

section
/-! Proofs of the statements about streams (spec/42_synchronizer.md R163, R166; spec/95_test_vectors.md L1.5): bytes
that arrive behind the window do not change an action of the step loop, so feeding them one by one gives what
appending them all and processing once gives. -/

namespace Sys2Proof.Machine

/-! ## Bytes behind the window -/

/-- The block with `bs` appended to its window. -/
def State.appendAll (s : State) (bs : List Byte) : State := { s with host := { s.host with win := s.host.win ++ bs } }

section
variable (s : State) (bs : List Byte)

@[simp] theorem State.appendAll_cfg : (s.appendAll bs).cfg = s.cfg := rfl
@[simp] theorem State.appendAll_host : (s.appendAll bs).host = { s.host with win := s.host.win ++ bs } := rfl

theorem State.appendAll_nil : s.appendAll [] = s := by simp [appendAll]

theorem State.appendAll_append (cs : List Byte) : s.appendAll (bs ++ cs) = (s.appendAll bs).appendAll cs := by
  simp [appendAll]

end

/-- R151: an action other than WAIT is selected by the first `RS` bytes of the window. -/
theorem State.syncAction_appendAll {s : State} (h : ¬ s.Quiescent) (bs : List Byte) :
    (s.appendAll bs).syncAction = s.syncAction := by
  have hfull {w : List Byte} (hwin : s.host.win = s.cfg.startMarker :: w) (hl : s.cfg.rs ≤ s.host.win.length) :
      (s.appendAll bs).syncAction = s.syncAction := by
    have hend : recordByte (s.appendAll bs).host.win (s.cfg.rs - 1) = recordByte s.host.win (s.cfg.rs - 1) := by
      have hrs := s.cfg.rs_pos
      simp only [recordByte, appendAll_host]
      rw [List.getElem?_append_left (by omega)]
    rw [syncAction_full hwin hl, syncAction_full (s := s.appendAll bs) (w := w ++ bs) (by simp [hwin])
      (hl.trans (by simp)), appendAll_cfg, hend]
  rcases s.syncAction_cases with ⟨-, hq⟩ | ⟨ha, b, w, hwin, hb⟩ | ⟨-, w, hwin, hl, -⟩ | ⟨-, w, hwin, hl, -⟩
  · exact absurd hq h
  · rw [ha]
    exact syncAction_stray (w := w ++ bs) (by simp [hwin]) hb
  · exact hfull hwin hl
  · exact hfull hwin hl

theorem State.dropFront_appendAll {s : State} {n : Nat} (h : n ≤ s.host.wlen) (bs : List Byte) :
    (s.appendAll bs).dropFront n = (s.dropFront n).appendAll bs := by
  simp only [dropFront, appendAll, List.drop_append_of_le_length h]

/-- R155: the candidate is read off the first `RS` bytes of the window. -/
theorem State.candidate_appendAll {s : State} (h : s.cfg.rs ≤ s.host.wlen) (bs : List Byte) :
    (s.appendAll bs).candidate = s.candidate := by
  have hmem : (s.appendAll bs).memRead 0 s.cfg.rs = s.memRead 0 s.cfg.rs := List.take_append_of_le_length h
  rw [candidate, appendAll_cfg, hmem]
  rfl

theorem State.accept_appendAll {s : State} (h : s.cfg.rs ≤ s.host.wlen) (bs : List Byte) :
    (s.appendAll bs).accept = s.accept.appendAll bs := by
  rw [accept, candidate_appendAll h]
  exact dropFront_appendAll (s := (s.observe s.candidate.counter).emit s.candidate) h bs

/-- The step loop may be run before the last bytes arrive, and then again. -/
theorem State.processFrom_appendAll (bs : List Byte) (s : State) : ∀ acc nd, (s.appendAll bs).processFrom acc nd =
    ((s.processFrom acc nd).state.appendAll bs).processFrom (s.processFrom acc nd).acc (s.processFrom acc nd).nd := by
  induction s using State.sync_induction with
  | wait s hq =>
    intro acc nd
    rw [processFrom_of_quiescent hq]
  | drop s ha ih =>
    intro acc nd
    have hlen := wlen_dropFront_lt ha
    have hq : ¬ s.Quiescent := fun hq => by rw [(syncAction_wait_iff s).2 hq] at ha; simp at ha
    rw [processFrom_drop ha, processFrom_drop (by rwa [syncAction_appendAll hq]), dropFront_appendAll (by omega), ih]
  | accept s ha ih =>
    intro acc nd
    have hlen := wlen_accept ha
    have hq : ¬ s.Quiescent := fun hq => by rw [(syncAction_wait_iff s).2 hq] at ha; cases ha
    rw [processFrom_accept ha, processFrom_accept (by rwa [syncAction_appendAll hq]), accept_appendAll (by omega),
      candidate_appendAll (by omega), ih]

/-- What the loop leaves and discards does not depend on what it was begun with; its count goes on from there. -/
theorem State.processFrom_eq_process (s : State) : ∀ acc nd,
    (s.processFrom acc nd).state = s.process.state ∧ (s.processFrom acc nd).nd = nd + s.process.nd := by
  induction s using State.sync_induction with
  | wait s hq =>
    intro acc nd
    rw [process_eq_processFrom, processFrom_of_quiescent hq, processFrom_of_quiescent hq]
    exact ⟨rfl, rfl⟩
  | drop s ha ih =>
    intro acc nd
    obtain ⟨hstate, hnd⟩ := ih acc (nd + 1)
    obtain ⟨hstate0, hnd0⟩ := ih none (0 + 1)
    rw [process_eq_processFrom, processFrom_drop ha, processFrom_drop ha, hstate, hstate0, hnd, hnd0]
    exact ⟨rfl, by omega⟩
  | accept s ha ih =>
    intro acc nd
    obtain ⟨hstate, hnd⟩ := ih (some s.candidate) nd
    obtain ⟨hstate0, hnd0⟩ := ih (some s.candidate) 0
    rw [process_eq_processFrom, processFrom_accept ha, processFrom_accept ha, hstate, hstate0, hnd, hnd0]
    exact ⟨rfl, by omega⟩

/-- The loop discards no more than the window holds. -/
theorem State.process_nd_le (s : State) : s.process.nd ≤ s.host.wlen := by
  have h : s.process.state.host.wlen + s.process.nd ≤ s.host.wlen := by
    refine processLoop_keeps (P := fun t _ nd => t.host.wlen + nd ≤ s.host.wlen) ?_ ?_ _ s none 0 le_rfl
    · intro t _ nd h ha
      have := wlen_dropFront_lt ha
      omega
    · intro t _ nd h ha
      have := wlen_accept ha
      omega
  exact (Nat.le_add_left _ _).trans h

/-! ## Reading chunks (R163) -/

theorem readChunk_eq (bs : List Byte) (s : State) :
    readChunk bs s = ((s.appendAll bs).process.state, (s.appendAll bs).process.nd) := rfl

theorem readChunk_quiescent (bs : List Byte) (s : State) : (readChunk bs s).1.Quiescent := State.process_quiescent _

/-- A read touches only the host unit and the output port. -/
theorem readChunk_frame (bs : List Byte) (s : State) : s.LoopFrame (readChunk bs s).1 :=
  have h := (s.appendAll bs).process_frame
  ⟨h.cfg, h.dev, h.responses, h.input, h.output⟩

theorem readChunk_nil {s : State} (hq : s.Quiescent) : readChunk [] s = (s, 0) := by
  rw [readChunk_eq, s.appendAll_nil, State.process_eq_processFrom, State.processFrom_of_quiescent hq]

/-- R163: reading two chunks at once is reading one and then the other. -/
theorem readChunk_append (bs cs : List Byte) (s : State) :
    readChunk (bs ++ cs) s =
      ((readChunk cs (readChunk bs s).1).1, (readChunk bs s).2 + (readChunk cs (readChunk bs s).1).2) := by
  have h := State.processFrom_appendAll cs (s.appendAll bs) none 0
  obtain ⟨hstate, hnd⟩ := ((s.appendAll bs).process.state.appendAll cs).processFrom_eq_process
    (s.appendAll bs).process.acc (s.appendAll bs).process.nd
  simp only [readChunk_eq, s.appendAll_append, State.process_eq_processFrom] at hstate hnd ⊢
  rw [h, hstate, hnd]

/-- Reading a list of chunks is reading the bytes of them all at once. -/
theorem readChunks_eq {s : State} (hq : s.Quiescent) (chunks : List (List Byte)) (nd : Nat) :
    readChunks chunks s nd = ((readChunk chunks.flatten s).1, nd + (readChunk chunks.flatten s).2) := by
  induction chunks generalizing s nd with
  | nil => rw [List.flatten_nil, readChunk_nil hq]; rfl
  | cons chunk chunks ih =>
    rw [readChunks, ih (readChunk_quiescent chunk s), List.flatten_cons, readChunk_append, Nat.add_assoc]

/-- A read does not see the responses given before. -/
theorem readChunk_respond (bs : List Byte) (s : State) (port : Port) (r : Response) :
    readChunk bs (s.respond port r) = ((readChunk bs s).1.respond port r, (readChunk bs s).2) := by
  have hframe := readChunk_frame bs s
  have h := processLoop_inside (s.appendAll bs).host.wlen none 0 (s.appendAll bs) { s.respond port r with output := [] }
  refine (congrArg (fun d : Processed => (d.state, d.nd)) h).trans (Prod.ext ?_ rfl)
  change (readChunk bs s).1.inside _ = _
  simp [State.inside, State.respond, hframe.dev, hframe.responses, hframe.input]

/-! ## Feeding bytes -/

/-- R158: SYNC_IN reads a chunk of one byte, and reports what that discards. -/
theorem exec_syncIn_eq_readChunk {s : State} (hq : s.Quiescent) (b : Byte) : ∃ r,
    exec (.syncIn b) s = .next ((readChunk [b] s).1.respond .host r) ∧ r.ndisc.toNat = (readChunk [b] s).2 := by
  refine ⟨_, rfl, ?_⟩
  have hnd : (s.append b).process.nd % 2 ^ 8 = (s.append b).process.nd := by
    refine Nat.mod_eq_of_lt ((s.append b).process_nd_le.trans_lt ?_)
    have hlt := hq.length_lt
    have hrs := s.cfg.rs_cases
    simp only [HostUnit.wlen, State.append_host, List.length_append, List.length_singleton]
    omega
  cases hacc : (s.append b).process.acc <;> exact hnd

/-- R163: feeding bytes one by one leaves what reading them at once leaves, with one response for each. -/
theorem runInputs_feed {s : State} (hw : s.cfg.wf = true) (hq : s.Quiescent) (bs : List Byte) : ∃ rs,
    runInputs (feed bs) s =
      .next { (readChunk bs s).1 with responses := s.responses ++ rs, input := [] } ∧
    totalDiscards rs = (readChunk bs s).2 := by
  induction bs generalizing s with
  | nil => exact ⟨[], by rw [readChunk_nil hq, List.append_nil]; rfl, by rw [readChunk_nil hq]; rfl⟩
  | cons b bs ih =>
    obtain ⟨r, hexec, hr⟩ := exec_syncIn_eq_readChunk hq b
    have hframe := readChunk_frame [b] s
    obtain ⟨rs, hrun, hrs⟩ := ih (s := (readChunk [b] s).1.respond .host r) (hframe.cfg ▸ hw)
      (readChunk_quiescent [b] s)
    have hsplit := readChunk_append [b] bs s
    rw [List.singleton_append] at hsplit
    rw [readChunk_respond] at hrun hrs
    refine ⟨⟨.host, r⟩ :: rs, (runInputs_program_cons hw rfl hexec _).trans (hrun.trans ?_), ?_⟩
    · simp [hsplit, hframe.responses, State.respond]
    · rw [hsplit, ← hr, ← hrs, totalDiscards, List.map_cons, List.sum_cons]
      rfl

theorem readChunk_of_runInputs_feed {s t : State} {bs : List Byte} (hw : s.cfg.wf = true) (hq : s.Quiescent)
    (h : runInputs (feed bs) s = .next t) :
    t.cfg = s.cfg ∧ t.host = (readChunk bs s).1.host ∧ t.output = (readChunk bs s).1.output ∧
      totalDiscards (newReplies s t) = (readChunk bs s).2 := by
  obtain ⟨rs, hrun, hrs⟩ := runInputs_feed hw hq bs
  rw [h] at hrun
  cases hrun
  exact ⟨(readChunk_frame bs s).cfg, rfl, rfl, by rw [newReplies_of_append (rs := rs) rfl, hrs]⟩

/-- Settles O31: both ways are the same as reading the whole stream at once. -/
theorem chunkingDoesNotMatter : Obligations.ChunkingDoesNotMatter := by
  intro s chunks hw hq
  obtain ⟨t, hrun⟩ := runInputs_completes hw (feed chunks.flatten)
  obtain ⟨-, hhost, hout, hnd⟩ := readChunk_of_runInputs_feed hw hq hrun
  rw [readChunks_eq hq, Nat.zero_add]
  exact ⟨t, hrun, hhost, hout, hnd⟩

/-! ## A frame that arrives whole (R166) -/

/-- What the step loop keeps from `s` to `t` while a frame whose first bytes are `p` arrives: if nothing was accepted,
the window still ends in those bytes. -/
structure State.Arriving (p : List Byte) (s t : State) : Prop where
  cfg : t.cfg = s.cfg
  output : s.output <+: t.output
  suffix : t.output = s.output → p <:+ t.host.win

/-- R152, R154: a dropped byte stands before the frame, since it is no start marker, or the window is longer than what
has arrived of the frame. -/
theorem State.Arriving.dropFront {s t : State} {w : List Byte} (h : State.Arriving (s.cfg.startMarker :: w) s t)
    (hl : w.length + 1 < s.cfg.rs) (ha : t.syncAction = .dropResync ∨ t.syncAction = .dropBadEnd) :
    State.Arriving (s.cfg.startMarker :: w) s (t.dropFront 1) := by
  refine ⟨h.cfg, h.output, fun hout => ?_⟩
  obtain ⟨b, v, hwin, hne⟩ : ∃ b v, t.host.win = b :: v ∧ s.cfg.startMarker :: w ≠ b :: v := by
    rcases t.syncAction_cases with ⟨hact, -⟩ | ⟨-, b, v, hwin, hb⟩ | ⟨-, v, hwin, hfull, -⟩ | ⟨hact, -⟩
    · rw [hact] at ha; simp at ha
    · refine ⟨b, v, hwin, fun heq => hb ?_⟩
      rw [h.cfg]
      exact (List.cons.inj heq).1.symm
    · refine ⟨_, v, hwin, fun heq => ?_⟩
      rw [hwin, ← heq, h.cfg, List.length_cons] at hfull
      omega
    · rw [hact] at ha; simp at ha
  have hsuffix := h.suffix hout
  rw [hwin] at hsuffix
  rw [dropFront_host, hwin]
  exact (List.suffix_cons_iff.1 hsuffix).resolve_left hne

theorem State.Arriving.accept {p : List Byte} {s t : State} (h : State.Arriving p s t) :
    State.Arriving p s t.accept := by
  refine ⟨h.cfg, h.output.trans (List.prefix_append _ _), fun hout => ?_⟩
  have hle := h.output.length_le
  have hlen := congrArg List.length hout
  rw [accept_output, List.length_append, List.length_singleton] at hlen
  omega

/-- While nothing is accepted, the window ends in the bytes of a frame that has begun to arrive, and so it holds them
alone when one byte is missing. -/
theorem readChunk_win_of_arriving {s : State} {w : List Byte} (hl : w.length + 2 = s.cfg.rs)
    (hout : (readChunk (s.cfg.startMarker :: w) s).1.output = s.output) :
    (readChunk (s.cfg.startMarker :: w) s).1.host.win = s.cfg.startMarker :: w := by
  have harriving : State.Arriving (s.cfg.startMarker :: w) s (readChunk (s.cfg.startMarker :: w) s).1 :=
    processLoop_keeps (P := fun t _ _ => State.Arriving (s.cfg.startMarker :: w) s t)
      (fun t _ _ h ha => h.dropFront (by omega) ha) (fun t _ _ h _ => h.accept) _ _ none 0
      ⟨rfl, List.prefix_rfl, fun _ => List.suffix_append _ _⟩
  have hsuffix := harriving.suffix hout
  have hlt := (readChunk_quiescent (s.cfg.startMarker :: w) s).length_lt
  rw [harriving.cfg] at hlt
  refine (hsuffix.eq_of_length_le ?_).symm
  rw [List.length_cons]
  omega

/-- A sequence of `RS` bytes with both markers in place is a body between them (R70, R71). -/
theorem exists_eq_markers {cfg : Config} {frame : List Byte} (hlen : frame.length = cfg.rs)
    (hhead : frame.head? = some cfg.startMarker) (hlast : frame.getLast? = some cfg.endMarker) :
    ∃ w : List Byte, frame = cfg.startMarker :: w ++ [cfg.endMarker] ∧ w.length + 2 = cfg.rs := by
  have hrs := cfg.rs_cases
  obtain ⟨v, rfl⟩ := List.getLast?_eq_some_iff.1 hlast
  cases v with
  | nil => simp only [List.nil_append, List.length_singleton] at hlen; omega
  | cons b w =>
    have hb : b = cfg.startMarker := by simpa using hhead
    exact ⟨w, by rw [hb], by simpa using hlen⟩

/-- Settles O33: when only the last byte is missing the window holds what has arrived of the frame, and the end marker
completes it. -/
theorem intactFrameIsAccepted : Obligations.IntactFrameIsAccepted := by
  intro s t frame hw hq hlen hhead hlast hrun hout
  obtain ⟨w, rfl, hl⟩ := exists_eq_markers hlen hhead hlast
  rw [List.dropLast_concat] at hrun
  obtain ⟨hcfg, hhost, hread, -⟩ := readChunk_of_runInputs_feed hw hq hrun
  have hwin : t.host.win = s.cfg.startMarker :: w := by
    rw [hhost, readChunk_win_of_arriving hl (hread.symm.trans hout)]
  have hsplit : feed (s.cfg.startMarker :: w ++ [s.cfg.endMarker]) =
      feed (s.cfg.startMarker :: w) ++ program [.syncIn s.cfg.endMarker] := by
    simp [feed, program]
  have hfeed := runInputs_append hw _ (program [.syncIn s.cfg.endMarker]) hrun
  rw [← hsplit] at hfeed
  rw [← hcfg] at hw hwin hl hfeed ⊢
  have haccept := runInputs_program_singleton hw rfl (exec_syncIn_accept hwin hl rfl)
  refine ⟨_, frameRecord t.cfg t.host (t.host.win ++ [t.cfg.endMarker]), hfeed.trans haccept, rfl, ?_, ?_⟩
  · rw [← hout]
    rfl
  · rw [hwin]
    rfl

/-! ## A garbage byte before a frame (L1.5) -/

/-- A byte before the others that the loop drops, whatever follows it, is one discard more. -/
theorem readChunk_cons_of_drop {s : State} (hwin : s.host.win = []) {g : Byte} {bs : List Byte}
    (h : (s.appendAll (g :: bs)).syncAction = .dropResync ∨ (s.appendAll (g :: bs)).syncAction = .dropBadEnd) :
    readChunk (g :: bs) s = ((readChunk bs s).1, 1 + (readChunk bs s).2) := by
  have hdrop : (s.appendAll (g :: bs)).dropFront 1 = s.appendAll bs := by
    simp [State.appendAll, State.dropFront, hwin]
  obtain ⟨hstate, hnd⟩ := (s.appendAll bs).processFrom_eq_process none (0 + 1)
  rw [readChunk_eq, State.process_eq_processFrom, State.processFrom_drop h, hdrop, hstate, hnd]
  rfl

/-- C2: a byte before a frame, alone in the window with it, is dropped if it is no start marker, or if the frame's pin
byte, which stands where the end marker of its own candidate would, is no end marker. -/
theorem syncAction_garbage_enc {s : State} (hwin : s.host.win = []) {g : Byte} (c : Byte) (t : BitVec 32) {p : BitVec 4}
    (h : g ≠ s.cfg.startMarker ∨ (0#4 ++ p : Byte) ≠ s.cfg.endMarker) :
    (s.appendAll (g :: enc s.cfg c t p)).syncAction = .dropResync ∨
      (s.appendAll (g :: enc s.cfg c t p)).syncAction = .dropBadEnd := by
  have hnew : (s.appendAll (g :: enc s.cfg c t p)).host.win = g :: enc s.cfg c t p := by simp [hwin]
  by_cases hg : g = s.cfg.startMarker
  · have hpin : recordByte (g :: enc s.cfg c t p) (s.cfg.rs - 1) = 0#4 ++ p := by
      rw [← setWidth_pins]
      cases hwide : s.cfg.wide
      · simp [enc_narrow hwide, recordByte, Config.rs_narrow hwide]
      · simp [enc_wide hwide, recordByte, Config.rs_wide hwide]
    rw [← hpin, ← hnew] at h
    subst hg
    refine .inr ((State.syncAction_full hnew (by simp [hwin])).trans (if_neg ?_))
    exact h.resolve_left (not_not.2 rfl)
  · exact .inl (State.syncAction_stray hnew hg)

/-- Settles O34: the garbage byte is one discard, and without it the idle host unit accepts a whole frame. -/
theorem garbageByteThenFrame : Obligations.GarbageByteThenFrame := by
  intro s g c t p hw hwin ht hc2
  have hq : s.Quiescent := .inl hwin
  obtain ⟨w, henc, hl⟩ := exists_enc_eq_markers s.cfg c t p
  have hrec := frameRecord_enc ht s.host c p
  rw [henc] at hrec
  have hframe := runInputs_feed_frame hw hwin hl hrec
  rw [← henc] at hframe
  obtain ⟨-, hhost, hout, hnd⟩ := readChunk_of_runInputs_feed hw hq hframe
  obtain ⟨u, hrun⟩ := runInputs_completes hw (feed (g :: enc s.cfg c t p))
  obtain ⟨-, hhost', hout', hnd'⟩ := readChunk_of_runInputs_feed hw hq hrun
  rw [readChunk_cons_of_drop hwin (syncAction_garbage_enc hwin c t hc2)] at hhost' hout' hnd'
  refine ⟨u, _, hrun, ?_, ?_, hout'.trans hout.symm⟩
  · rw [hnd', ← hnd, newReplies_of_append (List.append_assoc ..)]
    simp [totalDiscards, acceptEffect, syncResponse]
  · rw [hhost', ← hhost]
    rfl

end Sys2Proof.Machine
end

section
/-! Proofs of the statements about what every step keeps (spec/42_synchronizer.md R157, R161, R164; spec/10_state.md
R22, R26, R27, R29): only SYNC_IN, SYNC_CLEAR and power-on touch the host unit, and each leaves a quiescent window. -/

namespace Sys2Proof.Machine

/-! ## What a command does to the host unit -/

/-- R83: only SYNC_IN and SYNC_CLEAR set `ndisc`, and they are no commands of the device unit. -/
theorem devEffect_ndisc (cfg : Config) (d : Dev) (i : Instr) : (devEffect cfg d i).response.ndisc = 0#8 := by
  have hencode (c t p) : (encodeResponse cfg c t p).ndisc = 0#8 := by
    unfold encodeResponse
    split <;> rfl
  have hemit (t p) : (emitEffect cfg t p d).response.ndisc = 0#8 := by
    unfold emitEffect
    split <;> rfl
  cases i with
  | encodeWide c t p => exact hencode c t p
  | encodeNarrow c t p => exact hencode c _ p
  | emitWide t p => exact hemit t p
  | emitNarrow t p => exact hemit _ p
  | tick | now | decodeWide | decodeNarrow | syncIn | syncClear => rfl

/-- R83: a DECODE does not set `ndisc`. -/
theorem decodeResponse_ndisc (cfg : Config) (pl : Payload) : (decodeResponse cfg pl).ndisc = 0#8 := by
  unfold decodeResponse
  split
  · split <;> rfl
  · rfl

/-- A command that leaves the host unit and the output port alone, and whose response reports no discard. -/
structure State.HostUntouched (s t : State) : Prop where
  cfg : t.cfg = s.cfg
  host : t.host = s.host
  output : t.output = s.output
  responses : ∃ r, t.responses = s.responses ++ [r] ∧ r.response.ndisc = 0#8

/-- R150: every instruction other than SYNC_IN and SYNC_CLEAR leaves the host unit alone. -/
theorem exec_host_cases {i : Instr} {s t : State} (h : exec i s = .next t) :
    (∃ b, i = .syncIn b) ∨ i = .syncClear ∨ s.HostUntouched t := by
  have hhost (hu : i.unit = .host) : t = s.applyHost (hostEffect s.cfg s.host i) := by
    rw [exec_host hu] at h
    exact (Host.Outcome.next.inj h).symm
  have hdecode {r : List Byte} (ht : t = s.applyHost ⟨s.host, [], decodeResponse s.cfg (pack r)⟩) :
      s.HostUntouched t := by
    subst ht
    exact ⟨rfl, rfl, List.append_nil _, _, rfl, decodeResponse_ndisc _ _⟩
  cases hu : i.unit with
  | dev =>
    rw [exec_dev hu] at h
    cases h
    exact .inr (.inr ⟨rfl, rfl, rfl, _, rfl, devEffect_ndisc _ _ _⟩)
  | host =>
    cases i with
    | syncIn b => exact .inl ⟨b, rfl⟩
    | syncClear => exact .inr (.inl rfl)
    | decodeWide r => exact .inr (.inr (hdecode (hhost hu)))
    | decodeNarrow r => exact .inr (.inr (hdecode (hhost hu)))
    | tick | now | encodeWide | encodeNarrow | emitWide | emitNarrow => cases hu

theorem State.raiseIllegal_hostUntouched (s : State) (port : Port) (why : IllegalCause) :
    s.HostUntouched (s.raiseIllegal port why) := ⟨rfl, rfl, rfl, _, rfl, rfl⟩

theorem State.HostUntouched.quiescent {s t : State} (h : s.HostUntouched t) (hq : s.Quiescent) : t.Quiescent := by
  unfold State.Quiescent
  rw [h.host, h.cfg]
  exact hq

/-- Everything that an input that answers `t` can do: power-on, one instruction, or one ILLEGAL response. -/
theorem deliver_next_cases {a : Input} {s t : State} (h : deliver a s = .next t) :
    (∃ d, t = s.powerOn d) ∨ (∃ i, exec i s = .next t) ∨ ∃ port why, t = s.raiseIllegal port why := by
  rcases deliver_cases a s with ⟨d, -, h'⟩ | ⟨-, -, i, -, -, h'⟩ | ⟨port, -, why, -, -, h'⟩ <;> rw [h'] at h
  · exact .inl ⟨d, (Host.Outcome.next.inj h).symm⟩
  · exact .inr (.inl ⟨i, h⟩)
  · exact .inr (.inr ⟨port, why, (Host.Outcome.next.inj h).symm⟩)

/-! ## What has come out stays out (R161) -/

/-- R83, R210: a command has one response, and power-on none. -/
theorem deliver_responses {a : Input} {s t : State} (h : deliver a s = .next t) :
    t.responses = s.responses ∨ ∃ r, t.responses = s.responses ++ [r] := by
  rcases deliver_next_cases h with ⟨d, rfl⟩ | ⟨i, h⟩ | ⟨port, why, rfl⟩
  · exact .inl rfl
  · obtain ⟨r, hr⟩ := (exec_frame h).responses
    exact .inr ⟨_, hr⟩
  · exact .inr ⟨_, rfl⟩

theorem deliver_output {a : Input} {s t : State} (h : deliver a s = .next t) : s.output <+: t.output := by
  rcases deliver_next_cases h with ⟨d, rfl⟩ | ⟨i, h⟩ | ⟨port, why, rfl⟩
  · exact List.prefix_rfl
  · exact (exec_frame h).output
  · exact List.prefix_rfl

theorem deliver_responses_prefix {a : Input} {s t : State} (h : deliver a s = .next t) :
    s.responses <+: t.responses := by
  rcases deliver_responses h with hr | ⟨r, hr⟩ <;> rw [hr]
  exact List.prefix_append _ _

/-- R157: from a quiescent window an input adds at most one record to the output port. -/
theorem deliver_output_length {a : Input} {s t : State} (hq : s.Quiescent) (h : deliver a s = .next t) :
    t.output.length ≤ s.output.length + 1 := by
  rcases deliver_next_cases h with ⟨d, rfl⟩ | ⟨i, h⟩ | ⟨port, why, rfl⟩
  · exact Nat.le_succ _
  · rcases exec_host_cases h with ⟨b, rfl⟩ | rfl | hsame
    · rcases exec_syncIn_cases hq b with ⟨left, -, hexec⟩ | ⟨-, hexec⟩ <;> rw [hexec] at h <;> cases h
      · simp [discardEffect]
      · simp [acceptEffect]
    · rw [exec_syncClear] at h
      cases h
      simp
    · rw [hsame.output]
      exact Nat.le_succ _
  · exact Nat.le_succ _

/-- Settles O52: a step is idle or does what the next input does, and each input only adds. -/
theorem stepOnlyExtendsOutput : Obligations.StepOnlyExtendsOutput := by
  intro s t h
  obtain ⟨-, ⟨-, rfl⟩ | ⟨a, rest, -, h⟩⟩ := step_cases h
  · exact ⟨List.prefix_rfl, List.prefix_rfl, rfl, fun _ => ⟨Nat.le_succ _, Nat.le_succ _⟩⟩
  · have hout := deliver_output h
    have hresp := deliver_responses_prefix h
    refine ⟨hout, hresp, (deliver_cfg h).1, fun hq => ⟨deliver_output_length (s := s.withInput rest) hq h, ?_⟩⟩
    rcases deliver_responses h with hr | ⟨r, hr⟩ <;> simp [hr]

/-! ## The invariant -/

/-- R22: in a narrow block no instruction writes `OVF`. -/
theorem exec_ovf_of_narrow {i : Instr} {s t : State} (hn : s.cfg.wide = false) (h : exec i s = .next t) :
    t.dev.ovf = s.dev.ovf := by
  by_cases hi : i = .tick
  · subst hi
    rw [exec_tick] at h
    cases h
    simp [Dev.tick, hn]
  · obtain ⟨hclock, -⟩ := onlyItsWriterChangesARegister i s t h
    exact not_not.1 fun hne => hi (hclock (.inr hne))

/-- R22: after power-on a narrow block's `OVF` field is 0. -/
theorem Dev.powerOn_ovf_of_narrow {cfg : Config} (hn : cfg.wide = false) (d : Draws) :
    (Dev.powerOn cfg d).ovf = 0#16 := by simp [Dev.powerOn, hn]

/-- R83: a decoded timestamp is a Tick: `TSB` bytes hold `TW` bits. -/
theorem parse_timestamp_lt (cfg : Config) (r : List Byte) : (parse cfg r).timestamp.toNat < 2 ^ cfg.tw := by
  have hpow : 256 ^ cfg.tsb = 2 ^ cfg.tw := by
    cases hw : cfg.wide
    · norm_num [Config.tsb_narrow hw, Config.tw_narrow hw]
    · norm_num [Config.tsb_wide hw, Config.tw_wide hw]
  calc (parse cfg r).timestamp.toNat
      _ ≤ unbe (slice r offTs cfg.tsb) := Nat.mod_le _ _
      _ < 256 ^ (slice r offTs cfg.tsb).length := unbe_lt _
      _ ≤ 256 ^ cfg.tsb := Nat.pow_le_pow_right (by omega) (List.length_take_le _ _)
      _ = 2 ^ cfg.tw := hpow

/-- R155, R161: from a quiescent window, a SYNC_IN adds only a record that this block decoded. -/
theorem exec_syncIn_recordsDecoded {s t : State} {b : Byte} (hq : s.Quiescent) (hrec : s.RecordsDecoded)
    (h : exec (.syncIn b) s = .next t) : t.RecordsDecoded := by
  rcases exec_syncIn_cases hq b with ⟨left, -, hexec⟩ | ⟨-, hexec⟩ <;> rw [hexec] at h <;> cases h
  · intro r hr
    exact hrec r (by simpa [discardEffect] using hr)
  · intro r hr
    rcases List.mem_append.1 hr with hr | hr
    · exact hrec r hr
    · rw [List.mem_singleton.1 hr]
      exact ⟨parse_timestamp_lt _ _, rfl⟩

theorem exec_inv {i : Instr} {s t : State} (hinv : s.Inv) (h : exec i s = .next t) : t.Inv := by
  have hcfg := (exec_frame h).cfg
  have hovf : t.OvfAbsent := fun hn => by
    rw [hcfg] at hn
    rw [exec_ovf_of_narrow hn h, hinv.ovfAbsent hn]
  rcases exec_host_cases h with ⟨b, rfl⟩ | rfl | hsame
  · exact ⟨hcfg ▸ hinv.markers, quiescent_of_exec_syncIn h, hovf,
      exec_syncIn_recordsDecoded hinv.quiescent hinv.recordsDecoded h⟩
  · rw [exec_syncClear] at h
    cases h
    refine ⟨hinv.markers, .inl rfl, hovf, fun r hr => hinv.recordsDecoded r (by simpa using hr)⟩
  · refine ⟨hcfg ▸ hinv.markers, hsame.quiescent hinv.quiescent, hovf, ?_⟩
    unfold State.RecordsDecoded
    rw [hsame.output, hsame.cfg]
    exact hinv.recordsDecoded

theorem deliver_inv {a : Input} {s t : State} (hinv : s.Inv) (h : deliver a s = .next t) : t.Inv := by
  rcases deliver_next_cases h with ⟨d, rfl⟩ | ⟨i, h⟩ | ⟨port, why, rfl⟩
  · exact ⟨hinv.markers, .inl rfl, fun hn => Dev.powerOn_ovf_of_narrow hn d, hinv.recordsDecoded⟩
  · exact exec_inv hinv h
  · exact ⟨hinv.markers, hinv.quiescent, hinv.ovfAbsent, hinv.recordsDecoded⟩

/-- Settles O54: the window is empty, and no record has been put out. -/
theorem powerOnMeetsTheInvariant : Obligations.PowerOnMeetsTheInvariant := fun _ d hw =>
  ⟨hw, .inl rfl, fun hn => Dev.powerOn_ovf_of_narrow hn d, fun _ hr => nomatch hr⟩

/-- Settles O55: taking the input does not touch what the invariant speaks of, and each input keeps it. -/
theorem stepKeepsTheInvariant : Obligations.StepKeepsTheInvariant := by
  intro s t hinv h
  obtain ⟨-, ⟨-, rfl⟩ | ⟨a, rest, -, h⟩⟩ := step_cases h
  · exact hinv
  · have htaken : (s.withInput rest).Inv := ⟨hinv.markers, hinv.quiescent, hinv.ovfAbsent, hinv.recordsDecoded⟩
    exact deliver_inv htaken h

/-! ## Conservation (R164) -/

theorem totalDiscards_append (rs rs' : List Reply) :
    totalDiscards (rs ++ rs') = totalDiscards rs + totalDiscards rs' := by
  simp [totalDiscards]

theorem totalDiscards_singleton (r : Reply) : totalDiscards [r] = r.response.ndisc.toNat := by simp [totalDiscards]

/-- The responses of two runs, one after the other. -/
theorem newReplies_trans {s t u : State} (hst : s.responses <+: t.responses) (htu : t.responses <+: u.responses) :
    newReplies s u = newReplies s t ++ newReplies t u := by
  obtain ⟨rs, hrs⟩ := hst
  obtain ⟨rs', hrs'⟩ := htu
  rw [newReplies_of_append hrs.symm, newReplies_of_append hrs'.symm,
    newReplies_of_append (rs := rs ++ rs') (by rw [← hrs', ← hrs, List.append_assoc])]

/-- From `s` to `t`, `given` bytes were given to the synchronizer, and each byte is accounted for. -/
structure State.Accounts (given : Nat) (s t : State) : Prop where
  cfg : t.cfg = s.cfg
  quiescent : t.Quiescent
  output : s.output <+: t.output
  responses : s.responses <+: t.responses
  balance : s.host.wlen + given =
    t.host.wlen + totalDiscards (newReplies s t) + s.cfg.rs * (t.output.length - s.output.length)

theorem State.Accounts.trans {m n : Nat} {s t u : State} (h : State.Accounts m s t) (h' : State.Accounts n t u) :
    State.Accounts (n + m) s u where
  cfg := h'.cfg.trans h.cfg
  quiescent := h'.quiescent
  output := h.output.trans h'.output
  responses := h.responses.trans h'.responses
  balance := by
    have hsum : u.output.length - s.output.length =
        (t.output.length - s.output.length) + (u.output.length - t.output.length) := by
      have := h.output.length_le
      have := h'.output.length_le
      omega
    have hbal := h.balance
    have hbal' := h'.balance
    rw [h.cfg] at hbal'
    rw [newReplies_trans h.responses h'.responses, totalDiscards_append, hsum, Nat.mul_add]
    omega

/-- A command that does not touch the host unit gives no byte and loses none. -/
theorem State.HostUntouched.accounts {s t : State} (h : s.HostUntouched t) (hq : s.Quiescent) :
    State.Accounts 0 s t := by
  obtain ⟨r, hr, hnd⟩ := h.responses
  refine ⟨h.cfg, h.quiescent hq, h.output ▸ List.prefix_rfl, hr ▸ List.prefix_append _ _, ?_⟩
  rw [h.host, h.output, newReplies_of_append hr, totalDiscards_singleton, hnd, Nat.sub_self]
  rfl

/-- R157, R158: a SYNC_IN is given one byte, and accounts for it and for the window. -/
theorem exec_syncIn_accounts {s t : State} {b : Byte} (hq : s.Quiescent) (h : exec (.syncIn b) s = .next t) :
    State.Accounts 1 s t := by
  have hframe := exec_frame h
  obtain ⟨t', r, -, h', hq', hreplies, -, -, -, hcases⟩ := syncInFromQuiescentWindow s b hq
  rw [h] at h'
  cases h'
  obtain ⟨_, hr⟩ := hframe.responses
  refine ⟨hframe.cfg, hq', hframe.output, hr ▸ List.prefix_append _ _, ?_⟩
  rw [hreplies, totalDiscards_singleton]
  rcases hcases with ⟨-, hout, -, -, hsum⟩ | ⟨-, hnd, hwin, hfull, hout⟩
  · rw [hout, Nat.sub_self, Nat.mul_zero, ← hsum, Nat.add_zero]
  · simp [hnd, hwin, hout, ← hfull, HostUnit.wlen]

/-- R160: a SYNC_CLEAR accounts for the window that it discards. -/
theorem exec_syncClear_accounts {s t : State} (hq : s.Quiescent) (h : exec .syncClear s = .next t) :
    State.Accounts 0 s t := by
  have hlt := hq.length_lt
  have hrs := s.cfg.rs_cases
  have hnd : s.host.wlen % 2 ^ 8 = s.host.wlen := Nat.mod_eq_of_lt (by simp only [HostUnit.wlen]; omega)
  rw [exec_syncClear] at h
  cases h
  refine ⟨rfl, .inl rfl, List.prefix_append _ _, List.prefix_append _ _, ?_⟩
  rw [newReplies_of_append (State.applyHost_responses ..), totalDiscards_singleton, BitVec.toNat_ofNat, hnd]
  simp [HostUnit.wlen]

/-- A word gives the synchronizer a byte exactly where its port reads it as SYNC_IN. -/
theorem Input.givesByte_of_decode {cfg : Config} {port : Port} {w : CmdWord} {i : Instr}
    (hd : decode cfg port w = .instr i) : (Input.command port w).givesByte cfg = true ↔ ∃ b, i = .syncIn b := by
  simp only [givesByte, hd]
  cases i <;> simp

theorem deliver_accounts {port : Port} {w : CmdWord} {s t : State} (hq : s.Quiescent)
    (h : deliver (.command port w) s = .next t) :
    State.Accounts (if (Input.command port w).givesByte s.cfg then 1 else 0) s t := by
  cases hd : decode s.cfg port w with
  | illegal why =>
    have hno : (Input.command port w).givesByte s.cfg = false := by simp only [Input.givesByte, hd]
    simp only [deliver, hd] at h
    cases h
    rw [hno]
    exact (s.raiseIllegal_hostUntouched port why).accounts hq
  | instr i =>
    have hgives := Input.givesByte_of_decode hd
    rw [deliver_command_of_decode hd] at h
    by_cases hi : ∃ b, i = .syncIn b
    · rw [if_pos (hgives.2 hi)]
      obtain ⟨b, rfl⟩ := hi
      exact exec_syncIn_accounts hq h
    · rw [if_neg (mt hgives.1 hi)]
      rcases (exec_host_cases h).resolve_left hi with rfl | hsame
      · exact exec_syncClear_accounts hq h
      · exact hsame.accounts hq

theorem runInputs_accounts {ins : List Input} {s t : State} (hw : s.cfg.wf = true) (hq : s.Quiescent)
    (hins : ∀ a ∈ ins, ∃ port w, a = .command port w) (h : runInputs ins s = .next t) :
    State.Accounts (ins.countP (·.givesByte s.cfg)) s t := by
  induction ins generalizing s with
  | nil =>
    cases h
    exact ⟨rfl, hq, List.prefix_rfl, List.prefix_rfl, by simp [newReplies, totalDiscards]⟩
  | cons a ins ih =>
    obtain ⟨⟨port, w, rfl⟩, htail⟩ := List.forall_mem_cons.1 hins
    obtain ⟨u, hu⟩ := deliver_completes (.command port w) s
    have hfirst := deliver_accounts hq hu
    rw [runInputs_cons hw hu] at h
    have hrest := ih (hfirst.cfg ▸ hw) hfirst.quiescent htail h
    rw [hfirst.cfg] at hrest
    rw [List.countP_cons]
    exact hfirst.trans hrest

/-- Settles O32: every command accounts for the bytes, and the accounts add up along a run. -/
theorem streamBytesAreConserved : Obligations.StreamBytesAreConserved := by
  intro s ins hw hq hins
  obtain ⟨t, ht⟩ := runInputs_completes hw ins
  exact ⟨t, ht, (runInputs_accounts hw hq hins ht).balance⟩

end Sys2Proof.Machine
end

section
/-! Proof of the statement about the text line (spec/42_synchronizer.md R162): the model's digit loop writes the
decimal digits of the number. -/

namespace Sys2Proof.Machine

/-- Digits as ASCII text. -/
def ascii (digits : List Char) : List Byte := digits.map fun ch => BitVec.ofNat 8 ch.toNat

/-- A decimal digit has the ASCII code 0x30 and its value. -/
theorem ascii_digitChar {d : Nat} (h : d < 10) : ascii [d.digitChar] = [BitVec.ofNat 8 (0x30 + d)] := by
  revert d
  decide

/-- The loop writes the decimal digits of `n` in front of `acc`, where its bound is at least their number. -/
theorem decimalLoop_eq (fuel n : Nat) (h : n < 10 ^ (fuel + 1)) (acc : List Byte) :
    decimalLoop (fuel + 1) n acc = ascii (Nat.toDigits 10 n) ++ acc := by
  induction fuel generalizing n acc with
  | zero =>
    have hn : n < 10 := by simpa using h
    rw [decimalLoop, if_pos hn, Nat.toDigits_of_lt_base hn, ascii_digitChar hn, List.singleton_append]
  | succ fuel ih =>
    by_cases hn : n < 10
    · rw [decimalLoop, if_pos hn, Nat.toDigits_of_lt_base hn, ascii_digitChar hn, List.singleton_append]
    · have hdiv : n / 10 < 10 ^ (fuel + 1) := by
        rw [pow_succ] at h
        omega
      have hlast := ascii_digitChar (Nat.mod_lt n (show 10 > 0 by omega))
      rw [decimalLoop, if_neg hn, ih _ hdiv, Nat.toDigits_of_base_le (by omega) (Nat.le_of_not_lt hn)]
      simp only [ascii, List.map_append] at hlast ⊢
      rw [hlast, List.append_assoc, List.singleton_append]

/-- Ten digits hold every 32-bit number. -/
theorem decimal_eq (n : BitVec 32) : decimal n = ascii (Nat.toDigits 10 n.toNat) := by
  have hlt : n.toNat < 10 ^ (9 + 1) := by omega
  rw [decimal, decimalLoop_eq 9 _ hlt, List.append_nil]

/-- Settles O37: extending a byte to 32 bits keeps its number. -/
theorem textLineIsDecimal : Obligations.TextLineIsDecimal := by
  intro r
  have hbyte (b : Byte) : (b.setWidth 32).toNat = b.toNat := BitVec.toNat_setWidth_of_le (by omega)
  simp only [Record.line, decimal_eq, hbyte]
  rfl

end Sys2Proof.Machine
end

section
/-! Proofs of the statements about responses that are not OK (spec/60_exceptions.md R190 to R192): an instruction
answers once, a DECODE refuses a record for its two markers alone, and what answers an error has written nothing. -/

namespace Sys2Proof.Machine

/-! ## One response (R83, R190) -/

/-- Settles O50: every instruction completes, and its frame names the unit that answers. -/
theorem everyInstructionCompletesWithOneResponse : Obligations.EveryInstructionCompletesWithOneResponse := by
  intro i s
  obtain ⟨t, ht⟩ := exec_completes i s
  obtain ⟨r, hr⟩ := (exec_frame ht).responses
  exact ⟨t, r, ht, hr⟩

/-! ## A DECODE of a record of the block's own length (R122, R192) -/

theorem unpack_pack_of_length_rs {cfg : Config} {r : List Byte} (h : r.length = cfg.rs) :
    unpack cfg.rs (pack r) = r := by
  cases hw : cfg.wide
  · rw [Config.rs_narrow hw] at h ⊢
    exact unpack_pack_of_length_six h
  · rw [Config.rs_wide hw] at h ⊢
    exact unpack_pack_of_length_eight h

theorem recordFits_pack_of_length_rs {cfg : Config} {r : List Byte} (h : r.length = cfg.rs) :
    recordFits cfg (pack r) = true := by
  rw [recordFits_iff]
  cases hw : cfg.wide
  · exact .inr (toNat_pack_mod_of_length_six (h.trans (Config.rs_narrow hw)))
  · exact .inl rfl

/-- Past packing, the response turns on the record's own markers. -/
theorem decodeResponse_pack_of_length_rs {cfg : Config} {r : List Byte} (h : r.length = cfg.rs) :
    decodeResponse cfg (pack r) =
      if recordByte r 0 = cfg.startMarker ∧ recordByte r cfg.offEnd = cfg.endMarker then (parse cfg r).response
      else { status := .malformed, info := malformedInfo cfg r } := by
  rw [decodeResponse_of_fits (recordFits_pack_of_length_rs h), unpack_pack_of_length_rs h]

/-- The row of the block's width answers for the packed record. -/
theorem exec_decode_own_row (r : List Byte) (s : State) :
    exec (if s.cfg.wide then .decodeWide r else .decodeNarrow r) s =
      .next (s.respond .host (decodeResponse s.cfg (pack r))) := by
  split <;> exact exec_of_opcode_decode rfl s

theorem recordByte_offEnd_of_length {cfg : Config} {first last : Byte} {mid : List Byte}
    (h : mid.length + 2 = cfg.rs) : recordByte (first :: mid ++ [last]) cfg.offEnd = last := by
  have hoff : cfg.offEnd = mid.length + 1 := by
    rw [Config.offEnd]
    omega
  rw [hoff, List.cons_append, recordByte_cons_succ]
  simp [recordByte]

/-- Settles O17: packing keeps the record, so the response turns on its first and last byte. -/
theorem decodeChecksOnlyTheMarkers : Obligations.DecodeChecksOnlyTheMarkers := by
  intro s first last mid hlen
  have hrs : (first :: mid ++ [last]).length = s.cfg.rs := by simp [← hlen]
  refine ⟨_, exec_decode_own_row _ s, ?_⟩
  rw [decodeResponse_pack_of_length_rs hrs, malformedInfo_eq, recordByte_offEnd_of_length hlen, List.cons_append,
    recordByte_cons_zero]
  by_cases hm : first = s.cfg.startMarker ∧ last = s.cfg.endMarker
  · rw [if_pos hm]
    exact ⟨iff_of_true rfl hm, fun hne => absurd hm (not_and_or.2 hne)⟩
  · rw [if_neg hm]
    exact ⟨iff_of_false Status.noConfusion hm, fun _ => rfl⟩

/-! ## What answers an error has written nothing (R191) -/

/-- Of the device instructions only an EMIT can both write a register and answer an error, and it writes where it
answers OK. -/
theorem devEffect_dev_of_not_ok {cfg : Config} {d : Dev} {i : Instr} (h : (devEffect cfg d i).response.status ≠ .ok) :
    (devEffect cfg d i).dev = d := by
  have hemit {t p} (h : (emitEffect cfg t p d).response.status ≠ .ok) : (emitEffect cfg t p d).dev = d := by
    unfold emitEffect at h ⊢
    split_ifs at h ⊢
    · exact absurd rfl h
    · rfl
  cases i with
  | tick => exact absurd rfl h
  | emitWide t p => exact hemit h
  | emitNarrow t p => exact hemit h
  | now | encodeWide | encodeNarrow | decodeWide | decodeNarrow | syncIn | syncClear => rfl

/-- R158: a SYNC_IN answers OK, with or without a frame accepted. -/
@[simp] theorem syncResponse_status (acc : Option Record) (nd : Nat) : (syncResponse acc nd).status = .ok := by
  cases acc <;> rfl

/-- Of the host instructions only a DECODE can answer an error, and it writes nothing. -/
theorem hostEffect_of_not_ok {cfg : Config} {h : HostUnit} {i : Instr}
    (hne : (hostEffect cfg h i).response.status ≠ .ok) :
    (hostEffect cfg h i).host = h ∧ (hostEffect cfg h i).emitted = [] := by
  cases i with
  | syncIn b => exact absurd (syncResponse_status _ _) hne
  | syncClear => exact absurd rfl hne
  | decodeWide | decodeNarrow | tick | now | encodeWide | encodeNarrow | emitWide | emitNarrow => exact ⟨rfl, rfl⟩

/-- R191: an instruction whose response is not OK leaves the registers and the output port as they were. -/
theorem exec_of_not_ok {i : Instr} {s t : State} {r : Reply} (h : exec i s = .next t)
    (hr : t.responses = s.responses ++ [r]) (hne : r.response.status ≠ .ok) :
    t.dev = s.dev ∧ t.host = s.host ∧ t.output = s.output := by
  cases hu : i.unit with
  | dev =>
    rw [exec_dev hu] at h
    cases h
    obtain rfl : _ = r := List.singleton_inj.1 (List.append_cancel_left hr)
    exact ⟨devEffect_dev_of_not_ok hne, rfl, rfl⟩
  | host =>
    rw [exec_host hu] at h
    cases h
    obtain rfl : _ = r := List.singleton_inj.1 (List.append_cancel_left hr)
    obtain ⟨hhost, hemitted⟩ := hostEffect_of_not_ok hne
    exact ⟨rfl, hhost, by simp [hemitted]⟩

/-- Settles O40: a step that answers runs an instruction or answers ILLEGAL, since idling and power-on add no
response. -/
theorem errorsWriteNoState : Obligations.ErrorsWriteNoState := by
  intro s t r h hr hne
  obtain ⟨-, ⟨-, rfl⟩ | ⟨a, rest, -, h⟩⟩ := step_cases h
  · simp at hr
  · have hcfg : t.cfg = s.cfg := (deliver_cfg h).1
    rcases deliver_next_cases h with ⟨d, rfl⟩ | ⟨i, h⟩ | ⟨port, why, rfl⟩
    · simp at hr
    · obtain ⟨hdev, hhost, hout⟩ := exec_of_not_ok h hr hne
      exact ⟨hdev, hhost, hout, hcfg⟩
    · exact ⟨rfl, rfl, rfl, hcfg⟩

end Sys2Proof.Machine
end

section
/-! Proofs of the statements about reset and about what the host unit cannot see (spec/70_reset_and_hazards.md R210,
R222, R225): the continuity counter wraps at 256, and a stray start marker moves the candidate one byte to the front. -/

namespace Sys2Proof.Machine

/-! ## Power-on (R210, R32) -/

/-- Settles O53: a step that takes power-on writes the draws, and nothing is answered for it. -/
theorem powerOnResetsEveryRegister : Obligations.PowerOnResetsEveryRegister := by
  intro s d rest hw hi
  have hstep : step s = .next ((s.withInput rest).powerOn d) := step_of_input_cons hw hi
  have hovf (hwide : s.cfg.wide = true) : (Dev.powerOn s.cfg d).ovf = d.ovfInit := if_pos hwide
  exact ⟨_, hstep, rfl, hovf, rfl, rfl, rfl, rfl, rfl⟩

/-! ## A loss of whole counter cycles (R222) -/

/-- R222: after a loss of `k` frames the counter is at the expected value exactly where `k` is a multiple of 256. -/
theorem gapBit_after_loss {h : HostUnit} (hv : h.lastValid = true) (k : Nat) :
    gapBit h (h.last + 1#8 + BitVec.ofNat 8 k) = false ↔ k % 256 = 0 := by
  have hzero : BitVec.ofNat 8 k = 0 ↔ k % 256 = 0 := by
    rw [← BitVec.toNat_inj]
    rfl
  rw [gapBit, hv, Bool.true_and, bne_eq_false_iff_eq, add_eq_left, hzero]

/-- Settles O30: the accepted record's counter is the window's byte at offset 1. -/
theorem gapMissesMultiplesOf256 : Obligations.GapMissesMultiplesOf256 := by
  intro s k hv hhead hlen hcounter
  obtain ⟨w, hwin⟩ := List.head?_eq_some_iff.1 hhead
  have hl : w.length + 2 = s.cfg.rs := by simpa [hwin] using hlen
  have hc : recordByte (s.host.win ++ [s.cfg.endMarker]) offSeq = s.host.last + 1#8 + BitVec.ofNat 8 k := by
    obtain ⟨hlt, -⟩ := List.getElem?_eq_some_iff.1 hcounter
    rw [recordByte, offSeq, List.getElem?_append_left hlt, hcounter, Option.getD_some]
  refine ⟨_, _, exec_syncIn_accept hwin hl rfl, newReplies_of_append rfl, rfl, ?_⟩
  change gapBit s.host (recordByte (s.host.win ++ [s.cfg.endMarker]) offSeq) = false ↔ k % 256 = 0
  rw [hc, gapBit_after_loss hv]

/-! ## A stray start marker (R225) -/

/-- A frame whose pin byte is the end marker ends in two end markers. -/
theorem exists_eq_two_endMarkers {cfg : Config} {frame : List Byte} (hlen : frame.length = cfg.rs)
    (hlast : frame.getLast? = some cfg.endMarker) (hpin : frame[cfg.rs - 2]? = some cfg.endMarker) :
    ∃ w : List Byte, frame = w ++ [cfg.endMarker] ++ [cfg.endMarker] ∧ w.length + 2 = cfg.rs := by
  have hrs := cfg.rs_cases
  obtain ⟨v, rfl⟩ := List.getLast?_eq_some_iff.1 hlast
  have hv : v.length = cfg.rs - 2 + 1 := by
    rw [List.length_append, List.length_singleton] at hlen
    omega
  have hvlast : v.getLast? = some cfg.endMarker := by
    rwa [List.getElem?_append_left (by omega), ← Nat.add_sub_cancel (cfg.rs - 2) 1, ← hv,
      ← List.getLast?_eq_getElem?] at hpin
  obtain ⟨w, rfl⟩ := List.getLast?_eq_some_iff.1 hvlast
  exact ⟨w, rfl, by simpa using hlen⟩

/-- R152: a byte other than the start marker, fed into the empty window, is one discard. -/
theorem runInputs_feed_stray {s : State} (hw : s.cfg.wf = true) (hwin : s.host.win = []) {b : Byte}
    (hb : b ≠ s.cfg.startMarker) :
    runInputs (feed [b]) s = .next ((s.respond .host { ndisc := 1#8 }).withInput []) :=
  runInputs_program_singleton hw rfl (syncInDiscardsStrayByte s b hwin hb)

/-- Settles O35: the idle host unit accepts the false frame as a whole, and the frame's end marker, alone in the window,
is no start marker. -/
theorem strayMarkerSwallowsFrame : Obligations.StrayMarkerSwallowsFrame := by
  intro s frame hw hwin hlen _ hlast hpin
  obtain ⟨w, rfl, hl⟩ := exists_eq_two_endMarkers hlen hlast hpin
  have hne : s.cfg.endMarker ≠ s.cfg.startMarker := ((wf_iff_markers_ne s.cfg).1 hw).symm
  obtain ⟨rec, hrec⟩ : ∃ rec, rec = frameRecord s.cfg s.host (s.cfg.startMarker :: w ++ [s.cfg.endMarker]) :=
    ⟨_, rfl⟩
  have haccept := runInputs_feed_frame hw hwin hl hrec.symm
  have hstray := runInputs_feed_stray
    (s := ((s.afterKept (s.cfg.startMarker :: w)).applyHost (acceptEffect rec)).withInput []) hw rfl hne
  have hfeed : feed (s.cfg.startMarker :: (w ++ [s.cfg.endMarker] ++ [s.cfg.endMarker])) =
      feed (s.cfg.startMarker :: w ++ [s.cfg.endMarker]) ++ feed [s.cfg.endMarker] := by
    simp [feed, program]
  rw [hfeed, List.dropLast_concat]
  refine ⟨_, rec, (runInputs_append hw _ _ haccept).trans hstray, ?_, rfl, rfl, by rw [hrec]; rfl⟩
  rw [newReplies_of_append ((List.append_assoc ..).trans (List.append_assoc ..))]
  simp [totalDiscards, acceptEffect, syncResponse]

end Sys2Proof.Machine
end
